-- ==== Sys2Proof/Word.lean ====
section
/-! DEFINITION. The two unsigned widths of the CORE (00_scope.md R7, R9): `u8` and `u16`. -/

namespace Sys2Proof

/-- `u8`: a register, a memory cell, an opcode (R7 DATA_WIDTH). -/
abbrev Byte := BitVec 8

/-- `u16`: an address or the program counter (R7 ADDR_WIDTH, PC_WIDTH). -/
abbrev Word := BitVec 16

end Sys2Proof
end

