-- ==== Sys2Proof/Config.lean ====
section
/-! DEFINITION. The implementation parameters of 00_scope.md R7 that are not a width or a bit position.
The spec leaves no value open, so there is no free value here. `EXT_LDA` is the one parameter a model "takes as an
argument": its value for one machine is the field `extLda` of State (entry 1), and its default is given here. -/

namespace Sys2Proof.Config

/-- `RESET_VECTOR`: the low byte of the start address; the high byte is at the next address (R7, R40). -/
abbrev resetVector : Word := 0xFFFC

/-- `LOAD_BASE`: where `load` places a program (R7, R40). -/
abbrev loadBase : Word := 0x8000

/-- `LOAD_ENTRY`: what `load` writes at the reset vector (R7, R120). -/
abbrev loadEntry : Word := 0x8000

/-- `MAX_PROGRAM_LEN`, in bytes (R7, R41; the spec's decision D8). -/
abbrev maxProgramLen : Nat := 32768

/-- `MEM_SIZE`: the number of byte addresses (R7, R40). -/
abbrev memSize : Nat := 65536

/-- The default of `EXT_LDA` (R4, R7). -/
abbrev extLdaDefault : Bool := false

end Sys2Proof.Config
end

