-- ==== Sys2Proof/Syntax.lean ====
section
/-! DEFINITION. Names of registers, modes, operand forms and instructions, and the abstract syntax: one constructor of
`Instr` per row of opcode_table.json (30_encoding.md R53, R54). -/

namespace Sys2Proof

/-- The tagged register name {Accumulator, RegisterX, RegisterY} of 10_state.md R19 and 00_scope.md R10. -/
inductive Reg where
  | A
  | X
  | Y
  deriving DecidableEq, Repr

/-- The instruction an opcode names, apart from its mode (30_encoding.md R53, R54). -/
inductive Name where
  | brk
  | lda
  | tax
  | inx
  deriving DecidableEq, Repr

/-- The addressing modes: the nine with a resolution rule (41_addressing_modes.md R74-R82) and Implied (R83). -/
inductive AddrMode where
  | implied
  | immediate
  | zeroPage
  | zeroPageX
  | zeroPageY
  | absolute
  | absoluteX
  | absoluteY
  | indirectX
  | indirectY
  deriving DecidableEq, Repr

/-- The instruction formats of 30_encoding.md R49. -/
inductive Format where
  /-- One byte. -/
  | imp
  /-- Two bytes: opcode, `op8`. -/
  | b8
  /-- Three bytes: opcode, `lo`, `hi`. -/
  | w16
  deriving DecidableEq, Repr

/-- A mode together with its assembled operand (30_encoding.md R51): `op8` of the B8 format is a data byte, a zero-page
address or a pointer; the W16 format carries the address `(hi << 8) | lo`. -/
inductive OperandForm where
  | implied
  | immediate (op8 : Byte)
  | zeroPage (op8 : Byte)
  | zeroPageX (op8 : Byte)
  | zeroPageY (op8 : Byte)
  | absolute (address : Word)
  | absoluteX (address : Word)
  | absoluteY (address : Word)
  | indirectX (op8 : Byte)
  | indirectY (op8 : Byte)
  deriving DecidableEq, Repr

/-- One constructor per row of opcode_table.json, carrying the operand its bytes hold. -/
inductive Instr where
  /-- `BRK`, 0x00 (R53). -/
  | brk
  /-- `LDA #imm`, 0xA9 (R53). -/
  | ldaImm (op8 : Byte)
  /-- `TAX`, 0xAA (R53). -/
  | tax
  /-- `INX`, 0xE8 (R53). -/
  | inx
  /-- `LDA (zp,X)`, 0xA1, with EXT_LDA (R54). -/
  | ldaIndX (op8 : Byte)
  /-- `LDA zp`, 0xA5, with EXT_LDA (R54). -/
  | ldaZp (op8 : Byte)
  /-- `LDA abs`, 0xAD, with EXT_LDA (R54). -/
  | ldaAbs (address : Word)
  /-- `LDA (zp),Y`, 0xB1, with EXT_LDA (R54). -/
  | ldaIndY (op8 : Byte)
  /-- `LDA zp,X`, 0xB5, with EXT_LDA (R54). -/
  | ldaZpX (op8 : Byte)
  /-- `LDA abs,Y`, 0xB9, with EXT_LDA (R54). -/
  | ldaAbsY (address : Word)
  /-- `LDA abs,X`, 0xBD, with EXT_LDA (R54). -/
  | ldaAbsX (address : Word)
  deriving DecidableEq, Repr

end Sys2Proof
end

