-- ==== Sys2Proof/WellFormed.lean ====
section
/-! DEFINITION. Which instructions exist under a value of the parameter EXT_LDA. Operand bytes are never checked
(30_encoding.md R56) and their widths are in the types, so the opcode map is the only check there is. -/

namespace Sys2Proof

/-- The instruction is one of the seven that only `EXT_LDA` = true adds to the map (30_encoding.md R54). -/
def Instr.isExtended (i : Instr) : Bool :=
  match i with
  | .brk => false
  | .ldaImm _ => false
  | .tax => false
  | .inx => false
  | .ldaIndX _ => true
  | .ldaZp _ => true
  | .ldaAbs _ => true
  | .ldaIndY _ => true
  | .ldaZpX _ => true
  | .ldaAbsY _ => true
  | .ldaAbsX _ => true

/-- The instruction is in the opcode map under `extLda` (30_encoding.md R53, R54). -/
def Instr.wf (extLda : Bool) (i : Instr) : Bool :=
  extLda || !i.isExtended

end Sys2Proof
end

