-- ==== Sys2Proof/Decode.lean ====
section
/-! DEFINITION. Byte order helpers, the opcode map, the decoder (total on any bytes, rejecting by name) and, after it,
the encoder (30_encoding.md). -/

namespace Sys2Proof

/-- `zext_16(v)` (00_scope.md R9). -/
def zext16 (v : Byte) : Word := v.zeroExtend 16

/-- `v[7:0]` of a `u16` (00_scope.md R8). -/
def lowByte (v : Word) : Byte := v.extractLsb' 0 8

/-- `v[15:8]` of a `u16` (00_scope.md R8). -/
def highByte (v : Word) : Byte := v.extractLsb' 8 8

/-- `(h << 8) | l` (00_scope.md R9; little-endian, 20_memory.md R36). -/
def composeWord (hi lo : Byte) : Word := (zext16 hi <<< 8) ||| zext16 lo

/-- The two kinds of fault (00_scope.md R12, 60_exceptions.md R102). -/
inductive FaultKind where
  /-- The fetched opcode is not in the opcode map (R104). -/
  | unimplementedOpcode
  /-- A mode without a resolution rule was asked for (R105). -/
  | unsupportedAddressingMode
  deriving DecidableEq, Repr

/-- The label 60_exceptions.md R102 gives each kind (the spec's decision D25). -/
def FaultKind.code (k : FaultKind) : Nat :=
  match k with
  | .unimplementedOpcode => 1
  | .unsupportedAddressingMode => 2

/-- The number of operand bytes of each mode (30_encoding.md R50). -/
def AddrMode.operandLength (m : AddrMode) : Nat :=
  match m with
  | .implied => 0
  | .immediate => 1
  | .zeroPage => 1
  | .zeroPageX => 1
  | .zeroPageY => 1
  | .absolute => 2
  | .absoluteX => 2
  | .absoluteY => 2
  | .indirectX => 1
  | .indirectY => 1

/-- The format of each mode (30_encoding.md R49, R50). -/
def AddrMode.format (m : AddrMode) : Format :=
  match m with
  | .implied => .imp
  | .immediate => .b8
  | .zeroPage => .b8
  | .zeroPageX => .b8
  | .zeroPageY => .b8
  | .absolute => .w16
  | .absoluteX => .w16
  | .absoluteY => .w16
  | .indirectX => .b8
  | .indirectY => .b8

/-- The mode of an operand form. -/
def OperandForm.mode (f : OperandForm) : AddrMode :=
  match f with
  | .implied => .implied
  | .immediate _ => .immediate
  | .zeroPage _ => .zeroPage
  | .zeroPageX _ => .zeroPageX
  | .zeroPageY _ => .zeroPageY
  | .absolute _ => .absolute
  | .absoluteX _ => .absoluteX
  | .absoluteY _ => .absoluteY
  | .indirectX _ => .indirectX
  | .indirectY _ => .indirectY

/-- A row of the opcode map (30_encoding.md R53, R54, R58). The record's operand length is that of the mode (R50), and
its cycle count has no value in the source (R58). -/
structure OpcodeEntry where
  opcode : Byte
  name : Name
  mode : AddrMode
  deriving DecidableEq, Repr

/-- The base opcode map (30_encoding.md R53). -/
def baseMap : List OpcodeEntry :=
  [ ⟨0x00, .brk, .implied⟩,
    ⟨0xA9, .lda, .immediate⟩,
    ⟨0xAA, .tax, .implied⟩,
    ⟨0xE8, .inx, .implied⟩ ]

/-- The rows `EXT_LDA` = true adds (30_encoding.md R54; opcode values by the spec's decision D13). -/
def extMap : List OpcodeEntry :=
  [ ⟨0xA1, .lda, .indirectX⟩,
    ⟨0xA5, .lda, .zeroPage⟩,
    ⟨0xAD, .lda, .absolute⟩,
    ⟨0xB1, .lda, .indirectY⟩,
    ⟨0xB5, .lda, .zeroPageX⟩,
    ⟨0xB9, .lda, .absoluteY⟩,
    ⟨0xBD, .lda, .absoluteX⟩ ]

/-- The opcode map under a value of `EXT_LDA` (30_encoding.md R53, R54). -/
def opcodeMap (extLda : Bool) : List OpcodeEntry :=
  if extLda then baseMap ++ extMap else baseMap

/-- `decode(op)` of 30_encoding.md R52: a flat lookup on all eight bits of the opcode; `none` is UnimplementedOpcode. -/
def decodeOpcode (extLda : Bool) (op : Byte) : Option OpcodeEntry :=
  (opcodeMap extLda).find? fun e => e.opcode == op

/-- Operand assembly from the two bytes after the opcode (30_encoding.md R49, R51). -/
def assembleOperand (m : AddrMode) (b1 b2 : Byte) : OperandForm :=
  match m with
  | .implied => .implied
  | .immediate => .immediate b1
  | .zeroPage => .zeroPage b1
  | .zeroPageX => .zeroPageX b1
  | .zeroPageY => .zeroPageY b1
  | .absolute => .absolute (composeWord b2 b1)
  | .absoluteX => .absoluteX (composeWord b2 b1)
  | .absoluteY => .absoluteY (composeWord b2 b1)
  | .indirectX => .indirectX b1
  | .indirectY => .indirectY b1

/-- The instruction a map row's name and an operand form make; `none` for a pair no row of the table has. -/
def Instr.ofForm (n : Name) (f : OperandForm) : Option Instr :=
  match n, f with
  | .brk, .implied => some .brk
  | .tax, .implied => some .tax
  | .inx, .implied => some .inx
  | .lda, .immediate v => some (.ldaImm v)
  | .lda, .zeroPage v => some (.ldaZp v)
  | .lda, .zeroPageX v => some (.ldaZpX v)
  | .lda, .absolute a => some (.ldaAbs a)
  | .lda, .absoluteX a => some (.ldaAbsX a)
  | .lda, .absoluteY a => some (.ldaAbsY a)
  | .lda, .indirectX v => some (.ldaIndX v)
  | .lda, .indirectY v => some (.ldaIndY v)
  | _, _ => none

/-- The instruction at an opcode byte followed by two more bytes, or the kind of fault it raises: an opcode outside the
map is UnimplementedOpcode (30_encoding.md R55), and a row that pairs an instruction with a mode it has no form for is
rejected loudly as UnsupportedAddressingMode (41_addressing_modes.md R83; no row of these maps does). -/
def decodeInstr (extLda : Bool) (op b1 b2 : Byte) : Except FaultKind Instr :=
  match decodeOpcode extLda op with
  | none => .error .unimplementedOpcode
  | some e =>
    match Instr.ofForm e.name (assembleOperand e.mode b1 b2) with
    | none => .error .unsupportedAddressingMode
    | some i => .ok i

/-- The operand form of an instruction: its mode and its operand. -/
def Instr.form (i : Instr) : OperandForm :=
  match i with
  | .brk => .implied
  | .ldaImm v => .immediate v
  | .tax => .implied
  | .inx => .implied
  | .ldaIndX v => .indirectX v
  | .ldaZp v => .zeroPage v
  | .ldaAbs a => .absolute a
  | .ldaIndY v => .indirectY v
  | .ldaZpX v => .zeroPageX v
  | .ldaAbsY a => .absoluteY a
  | .ldaAbsX a => .absoluteX a

/-- The instruction of the map row an `Instr` belongs to (30_encoding.md R53, R54). -/
def Instr.name (i : Instr) : Name :=
  match i with
  | .brk => .brk
  | .tax => .tax
  | .inx => .inx
  | .ldaImm _ => .lda
  | .ldaIndX _ => .lda
  | .ldaZp _ => .lda
  | .ldaAbs _ => .lda
  | .ldaIndY _ => .lda
  | .ldaZpX _ => .lda
  | .ldaAbsY _ => .lda
  | .ldaAbsX _ => .lda

/-- The mode of an instruction (30_encoding.md R53, R54). -/
def Instr.mode (i : Instr) : AddrMode := i.form.mode

/-- Why a byte list is not an instruction. -/
inductive DecodeError where
  /-- The opcode (or its mode) is rejected with this kind of fault (30_encoding.md R55). -/
  | rejected (kind : FaultKind)
  /-- The list ends before the instruction does. A fetch never sees this: memory has no end (20_memory.md R34). -/
  | truncated
  deriving DecidableEq, Repr

/-- The decoder on a byte list: the instruction its first bytes are, and the bytes after it (30_encoding.md R48, R57). -/
def decode (extLda : Bool) (bytes : List Byte) : Except DecodeError (Instr × List Byte) :=
  match bytes with
  | [] => .error .truncated
  | op :: rest =>
    match decodeInstr extLda op (rest.getD 0 0) (rest.getD 1 0) with
    | .error k => .error (.rejected k)
    | .ok i =>
      if rest.length < i.mode.operandLength then .error .truncated
      else .ok (i, rest.drop i.mode.operandLength)

/-- The opcode byte of an instruction (30_encoding.md R53, R54). -/
def Instr.opcode (i : Instr) : Byte :=
  match i with
  | .brk => 0x00
  | .ldaImm _ => 0xA9
  | .tax => 0xAA
  | .inx => 0xE8
  | .ldaIndX _ => 0xA1
  | .ldaZp _ => 0xA5
  | .ldaAbs _ => 0xAD
  | .ldaIndY _ => 0xB1
  | .ldaZpX _ => 0xB5
  | .ldaAbsY _ => 0xB9
  | .ldaAbsX _ => 0xBD

/-- The operand bytes of a form, in address order: `op8`, or `lo` then `hi` (30_encoding.md R49). -/
def OperandForm.bytes (f : OperandForm) : List Byte :=
  match f with
  | .implied => []
  | .immediate v => [v]
  | .zeroPage v => [v]
  | .zeroPageX v => [v]
  | .zeroPageY v => [v]
  | .absolute a => [lowByte a, highByte a]
  | .absoluteX a => [lowByte a, highByte a]
  | .absoluteY a => [lowByte a, highByte a]
  | .indirectX v => [v]
  | .indirectY v => [v]

/-- The bytes of an instruction (30_encoding.md R48, R49). -/
def encode (i : Instr) : List Byte := i.opcode :: i.form.bytes

/-- Byte `k` of an instruction whose bits are `w`, numbered as opcode_table.json numbers them: the byte at offset 0 is
bits 7:0. Bits at or above `nbits` are 0. -/
def tableByte (nbits w k : Nat) : Byte := BitVec.ofNat 8 (w % 2 ^ nbits / 2 ^ (8 * k))

/-- What the decoder reads from a table word. The table lists the rows of both maps, so `EXT_LDA` is true here
(entry 1); under it the four base rows decode as they do without it. -/
def decodeTableWord (nbits w : Nat) : Option Instr :=
  match decodeInstr true (tableByte nbits w 0) (tableByte nbits w 1) (tableByte nbits w 2) with
  | .error _ => none
  | .ok i => some i

end Sys2Proof
end

