-- ==== Sys2Proof/Machine/State.lean ====
section
/-! DEFINITION. The CORE's state (10_state.md), the reasons a step or a host operation stops, construction and reset. -/

namespace Sys2Proof.Machine

/-- The control sequencer's state (10_state.md R27). -/
inductive Seq where
  | unloaded
  | loaded
  | running
  | halted
  | faulted
  deriving DecidableEq, Repr

/-- The fault record of 10_state.md R28: the kind, the opcode byte and the address it was fetched from. A fault is
raised by setting the record in State (60_exceptions.md R103); a step of a machine that already holds one answers it as
`Host.Outcome.fault` (entry 4). All are safe: no step follows. -/
inductive Fault where
  /-- Raised by the step when the fetched opcode is not in the opcode map (60_exceptions.md R104). Safe. -/
  | unimplementedOpcode (opcode : Byte) (address : Word)
  /-- Raised by the resolver for a mode with no resolution rule; no opcode of the maps reaches it
  (60_exceptions.md R105). Safe. -/
  | unsupportedAddressingMode (opcode : Byte) (address : Word)
  deriving DecidableEq, Repr

/-- Why the model gives a step or a host operation no meaning (00_scope.md R12, 70_reset_and_hazards.md R123). -/
inductive Refusal where
  /-- An instruction without a meaning; no arm of `exec` raises it. Safe. -/
  | notModelled (mnemonic : String)
  /-- A step outside `Running`, which "takes no step" (40_fetch_execute.md R66; entry 5). Raised by `step`. Safe. -/
  | notRunning (seq : Seq)
  /-- `run` from `Unloaded` (R123 RunNotLoaded). Raised by the host's `run`. Safe. -/
  | runNotLoaded
  /-- `run` from `Faulted` (R123 RunAfterFault). Raised by the host's `run`. Safe. -/
  | runAfterFault
  /-- `load` of more than 32768 bytes (R123 ProgramTooLarge). Raised by the host's `load`. Safe. -/
  | programTooLarge
  /-- A host operation while `Running`, which R123 says cannot occur (entry 14). Raised by every host operation. Safe. -/
  | hostWhileRunning
  deriving DecidableEq, Repr

/-- Memory as (address, byte) pairs in one canonical form, `Memory.wf`. -/
abbrev Memory := List Host.Cell

/-- What an unlisted address reads as: every byte is 0x00 at construction (70_reset_and_hazards.md R118). -/
abbrev Memory.background : Byte := 0x00

/-- Addresses rise strictly from `lo`, stay below `MEM_SIZE`, and no entry holds the background byte. -/
def Memory.wfFrom (lo : Nat) (m : Memory) : Bool :=
  match m with
  | [] => true
  | (a, v) :: rest => decide (lo ≤ a) && decide (a < Config.memSize) && v != Memory.background && wfFrom (a + 1) rest

/-- The canonical form, so that equal memories are equal lists. -/
def Memory.wf (m : Memory) : Bool := Memory.wfFrom 0 m

/-- Everything the spec gives the CORE (10_state.md R15), and the parameter `EXT_LDA` (entry 1). -/
structure State where
  /-- `accumulator`, A (R16). -/
  accumulator : Byte
  /-- `register_x`, X (R17). -/
  registerX : Byte
  /-- `register_y`, Y (R18). -/
  registerY : Byte
  /-- `status`: bit 7 Negative, bit 1 Zero, the others reserved and preserved (R22). -/
  status : Byte
  /-- `program_counter` (R26). -/
  pc : Word
  /-- `memory` (R29). -/
  mem : Memory
  /-- The sequencer state (R27). -/
  seq : Seq
  /-- The fault record (R28). -/
  fault : Option Fault
  /-- The parameter `EXT_LDA` (00_scope.md R4, R7): fixed for the machine, written by no step and no host operation. -/
  extLda : Bool
  deriving DecidableEq, Repr

/-- A newly built CORE with the given `EXT_LDA` (70_reset_and_hazards.md R118). -/
def State.constructWith (extLda : Bool) : State where
  accumulator := 0x00
  registerX := 0x00
  registerY := 0x00
  status := 0x00
  pc := 0x0000
  mem := []
  seq := .unloaded
  fault := none
  extLda := extLda

/-- A newly built CORE with the default parameters (R118, R7). -/
def State.construction : State := State.constructWith Config.extLdaDefault

/-- The machine right after reset: `reset` (70_reset_and_hazards.md R119) performed on a newly built CORE (R118). The
vector bytes of a newly built memory are 0x00, so pc is 0x0000 (95_test_vectors.md X5; entry 3). -/
def State.reset : State where
  accumulator := 0x00
  registerX := 0x00
  registerY := 0x00
  status := 0x00
  pc := 0x0000
  mem := []
  seq := .loaded
  fault := none
  extLda := Config.extLdaDefault

end Sys2Proof.Machine
end

