-- ==== Sys2Proof/Machine/Flags.lean ====
section
/-! DEFINITION. The flag unit (42_alu_and_flags.md R90-R94). -/

namespace Sys2Proof.Machine

/-- The bit of `status` that is Zero: `Z_BIT` (00_scope.md R7, 10_state.md R22). -/
def zBit : Nat := 1

/-- The bit of `status` that is Negative: `N_BIT` (00_scope.md R7, 10_state.md R22). -/
def nBit : Nat := 7

/-- Zero as `status` holds it (10_state.md R22). -/
def zeroFlag (status : Byte) : Bool := status.getLsbD zBit

/-- Negative as `status` holds it (10_state.md R22). -/
def negativeFlag (status : Byte) : Bool := status.getLsbD nBit

/-- `updateZN(r)` on an old `status` (R90): `(status & 0x7D) | (n << 7) | (z << 1)`. -/
def updateZN (status r : Byte) : Byte :=
  let z : Byte := if r = 0x00 then 1 else 0
  let n : Byte := if r.getLsbD 7 then 1 else 0
  (status &&& 0x7D) ||| (n <<< nBit) ||| (z <<< zBit)

/-- The flag unit's write of `status` from a result byte (10_state.md R23). -/
def State.setZN (s : State) (r : Byte) : State := { s with status := updateZN s.status r }

end Sys2Proof.Machine
end

