-- ==== Sys2Proof/Machine/Ops.lean ====
section
/-! DEFINITION. The named operations over memory and registers, raising a fault, and the way out of one: `reset`. -/

namespace Sys2Proof.Machine

/-- The byte at an address of the sparse memory; an unlisted address reads as the background byte. -/
def Memory.read (m : Memory) (a : Nat) : Byte :=
  match m with
  | [] => Memory.background
  | (k, v) :: rest => if k = a then v else Memory.read rest a

/-- One cell in front of a memory, left out when it holds the background byte. -/
def Memory.put (a : Nat) (v : Byte) (rest : Memory) : Memory :=
  if v = Memory.background then rest else (a, v) :: rest

/-- Store one byte, keeping the canonical form. -/
def Memory.write (m : Memory) (a : Nat) (v : Byte) : Memory :=
  match m with
  | [] => Memory.put a v []
  | (k, b) :: rest =>
    if a < k then Memory.put a v ((k, b) :: rest)
    else if a = k then Memory.put a v rest
    else (k, b) :: Memory.write rest a v

/-- `readByte(address)` (20_memory.md R32). -/
def readByte (m : Memory) (a : Word) : Byte := Memory.read m a.toNat

/-- `writeByte(address, value)` (20_memory.md R33). -/
def writeByte (m : Memory) (a : Word) (v : Byte) : Memory := Memory.write m a.toNat v

/-- `readWord(address)`, little-endian; the second address is `a +16 1` (20_memory.md R34, D3). -/
def readWord (m : Memory) (a : Word) : Word := composeWord (readByte m (a + 1)) (readByte m a)

/-- `writeWord(address, value)`, low byte first; the second address is `a +16 1` (20_memory.md R35, D3). -/
def writeWord (m : Memory) (a v : Word) : Memory :=
  writeByte (writeByte m a (lowByte v)) (a + 1) (highByte v)

/-- Bytes stored one after another from `a` upward, modulo 65536 (the loop of 70_reset_and_hazards.md R120). -/
def writeBytes (m : Memory) (a : Word) (bytes : List Byte) : Memory :=
  match bytes with
  | [] => m
  | b :: rest => writeBytes (writeByte m a b) (a + 1) rest

/-- `x[r]` (00_scope.md R10, 10_state.md R20). -/
def State.readReg (s : State) (r : Reg) : Byte :=
  match r with
  | .A => s.accumulator
  | .X => s.registerX
  | .Y => s.registerY

/-- `x[r] <- v`, the register file's one write port (00_scope.md R10, 10_state.md R19). -/
def State.writeReg (s : State) (r : Reg) (v : Byte) : State :=
  match r with
  | .A => { s with accumulator := v }
  | .X => { s with registerX := v }
  | .Y => { s with registerY := v }

/-- pc moves past `n` bytes, modulo 65536 (40_fetch_execute.md R61, R63). -/
def State.advancePc (s : State) (n : Nat) : State := { s with pc := s.pc + BitVec.ofNat 16 n }

/-- The sequencer's state is set: `seq <- q` (00_scope.md R10). -/
def State.setSeq (s : State) (q : Seq) : State := { s with seq := q }

/-- The record of a fault of this kind (10_state.md R28). -/
def faultRecord (kind : FaultKind) (opcode : Byte) (address : Word) : Fault :=
  match kind with
  | .unimplementedOpcode => .unimplementedOpcode opcode address
  | .unsupportedAddressingMode => .unsupportedAddressingMode opcode address

/-- The kind of a fault record (10_state.md R28). -/
def Fault.kind (f : Fault) : FaultKind :=
  match f with
  | .unimplementedOpcode _ _ => .unimplementedOpcode
  | .unsupportedAddressingMode _ _ => .unsupportedAddressingMode

/-- The opcode byte of a fault record (10_state.md R28). -/
def Fault.opcode (f : Fault) : Byte :=
  match f with
  | .unimplementedOpcode op _ => op
  | .unsupportedAddressingMode op _ => op

/-- The opcode's address in a fault record (10_state.md R28). -/
def Fault.address (f : Fault) : Word :=
  match f with
  | .unimplementedOpcode _ p => p
  | .unsupportedAddressingMode _ p => p

/-- `raise Fault(kind, (op, p))`: `seq <- Faulted`, `fault <- (kind, op, p)`, and nothing else changes; there is no trap
entry, no saved state and no vector (60_exceptions.md R103, R110). -/
def raiseFault (kind : FaultKind) (opcode : Byte) (address : Word) (s : State) : State :=
  { s with seq := .faulted, fault := some (faultRecord kind opcode address) }

/-- What `reset` leaves (70_reset_and_hazards.md R119). There is no return from a fault: `reset` (and `load`, which
performs it) is the only way out of `Faulted` (60_exceptions.md R106, R111). -/
def resetCore (s : State) : State :=
  { s with
    accumulator := 0x00
    registerX := 0x00
    registerY := 0x00
    status := 0x00
    pc := readWord s.mem Config.resetVector
    fault := none
    seq := .loaded }

end Sys2Proof.Machine
end

