-- ==== Sys2Proof/Machine/Control.lean ====
section
/-! DEFINITION. The control instruction (43_control_brk.md). The state given is the one after the fetch. -/

namespace Sys2Proof.Machine

/-- BRK: `seq <- Halted`, and nothing else (R96). -/
def execBrk (s : State) : Host.Outcome State Fault Refusal :=
  .next (s.setSeq .halted)

end Sys2Proof.Machine
end

