-- ==== Sys2Proof/Machine/Operands.lean ====
section
/-! DEFINITION. The addressing-mode resolver (41_addressing_modes.md R74-R85), for every mode the spec defines. In these
states pc is at the first operand byte (R26). -/

namespace Sys2Proof.Machine

/-- The 16-bit address a zero-page pointer holds: low byte at the pointer, high byte at `ptr +8 1`, inside the zero page
(R81, R82; D4). -/
def dereference (m : Memory) (ptr : Byte) : Word :=
  composeWord (readByte m (zext16 (ptr + 1))) (readByte m (zext16 ptr))

/-- The effective address of an assembled operand (R74-R83); `none` for Implied, the mode without a resolution rule
(R83). It reads pc, X, Y and memory and writes nothing (R84). -/
def effectiveAddress (f : OperandForm) (s : State) : Option Word :=
  match f with
  | .implied => none
  | .immediate _ => some s.pc
  | .zeroPage v => some (zext16 v)
  | .zeroPageX v => some (zext16 (v + s.readReg .X))
  | .zeroPageY v => some (zext16 (v + s.readReg .Y))
  | .absolute a => some a
  | .absoluteX a => some (a + zext16 (s.readReg .X))
  | .absoluteY a => some (a + zext16 (s.readReg .Y))
  | .indirectX v => some (dereference s.mem (v + s.readReg .X))
  | .indirectY v => some (dereference s.mem v + zext16 (s.readReg .Y))

/-- The operand of a mode as memory holds it at pc (R75, R78; 30_encoding.md R50, R51). -/
def operandAt (m : AddrMode) (s : State) : OperandForm :=
  match m with
  | .implied => .implied
  | .immediate => .immediate (readByte s.mem s.pc)
  | .zeroPage => .zeroPage (readByte s.mem s.pc)
  | .zeroPageX => .zeroPageX (readByte s.mem s.pc)
  | .zeroPageY => .zeroPageY (readByte s.mem s.pc)
  | .absolute => .absolute (readWord s.mem s.pc)
  | .absoluteX => .absoluteX (readWord s.mem s.pc)
  | .absoluteY => .absoluteY (readWord s.mem s.pc)
  | .indirectX => .indirectX (readByte s.mem s.pc)
  | .indirectY => .indirectY (readByte s.mem s.pc)

/-- `resolve(mode)`, as the spec writes it: from pc, the index registers and memory (R74-R84). -/
def resolve (m : AddrMode) (s : State) : Option Word := effectiveAddress (operandAt m s) s

/-- The byte an operand names: the immediate byte is the data value itself (30_encoding.md R51; it is the byte at pc,
R74), and every other form's byte is read at its effective address (44_load_lda.md R98). Entry 15. -/
def operandValue (f : OperandForm) (s : State) : Option Byte :=
  match f with
  | .immediate v => some v
  | f => (effectiveAddress f s).map (readByte s.mem)

end Sys2Proof.Machine
end

