-- ==== Sys2Proof/Machine/Load.lean ====
section
/-! DEFINITION. LDA in its eight forms (44_load_lda.md). The state given is the one after the fetch: pc is at the first
operand byte. -/

namespace Sys2Proof.Machine

/-- The LDA handler for an operand form (R98): A and the flags from the byte the operand names, pc past the operand. A
form without a resolution rule raises UnsupportedAddressingMode with the fetched opcode and its address, and does nothing
else (41_addressing_modes.md R83, 60_exceptions.md R105; entry 16). -/
def execLda (f : OperandForm) (s : State) : Host.Outcome State Fault Refusal :=
  match operandValue f s with
  | none => .next (raiseFault .unsupportedAddressingMode (readByte s.mem (s.pc - 1)) (s.pc - 1) s)
  | some v => .next (((s.writeReg .A v).setZN v).advancePc f.mode.operandLength)

/-- LDA, Immediate (R98, R74). -/
def execLdaImm (op8 : Byte) (s : State) : Host.Outcome State Fault Refusal := execLda (.immediate op8) s

/-- LDA, Indirect_X (R98, R81). -/
def execLdaIndX (op8 : Byte) (s : State) : Host.Outcome State Fault Refusal := execLda (.indirectX op8) s

/-- LDA, ZeroPage (R98, R75). -/
def execLdaZp (op8 : Byte) (s : State) : Host.Outcome State Fault Refusal := execLda (.zeroPage op8) s

/-- LDA, Absolute (R98, R78). -/
def execLdaAbs (address : Word) (s : State) : Host.Outcome State Fault Refusal := execLda (.absolute address) s

/-- LDA, Indirect_Y (R98, R82). -/
def execLdaIndY (op8 : Byte) (s : State) : Host.Outcome State Fault Refusal := execLda (.indirectY op8) s

/-- LDA, ZeroPage_X (R98, R76). -/
def execLdaZpX (op8 : Byte) (s : State) : Host.Outcome State Fault Refusal := execLda (.zeroPageX op8) s

/-- LDA, Absolute_Y (R98, R80). -/
def execLdaAbsY (address : Word) (s : State) : Host.Outcome State Fault Refusal := execLda (.absoluteY address) s

/-- LDA, Absolute_X (R98, R79). -/
def execLdaAbsX (address : Word) (s : State) : Host.Outcome State Fault Refusal := execLda (.absoluteX address) s

end Sys2Proof.Machine
end

