-- ==== Sys2Proof/Machine/Alu.lean ====
section
/-! DEFINITION. The ALU's two operations (42_alu_and_flags.md R86-R88). Neither produces a flag. -/

namespace Sys2Proof.Machine

/-- `INC8(v) = (v + 1) mod 256` (R87). -/
def inc8 (v : Byte) : Byte := v + 1

/-- `PASS(v) = v` (R88). -/
def pass (v : Byte) : Byte := v

end Sys2Proof.Machine
end

