-- ==== Sys2Proof/Machine/Register.lean ====
section
/-! DEFINITION. INX and TAX (45_register_inx_tax.md). The state given is the one after the fetch. -/

namespace Sys2Proof.Machine

/-- INX: X and the flags from `INC8(x[X])` (R100). -/
def execInx (s : State) : Host.Outcome State Fault Refusal :=
  let v := inc8 (s.readReg .X)
  .next ((s.writeReg .X v).setZN v)

/-- TAX: X and the flags from `PASS(x[A])` (R101). -/
def execTax (s : State) : Host.Outcome State Fault Refusal :=
  let v := pass (s.readReg .A)
  .next ((s.writeReg .X v).setZN v)

end Sys2Proof.Machine
end

