-- ==== Sys2Proof/Machine/Dispatch.lean ====
section
/-! DEFINITION. One arm per instruction: the handler the decoder dispatches to (40_fetch_execute.md R62, R63). -/

namespace Sys2Proof.Machine

def exec (i : Instr) (s : State) : Host.Outcome State Fault Refusal :=
  match i with
  | .brk => Sys2Proof.Machine.execBrk s
  | .ldaImm op8 => Sys2Proof.Machine.execLdaImm op8 s
  | .tax => Sys2Proof.Machine.execTax s
  | .inx => Sys2Proof.Machine.execInx s
  | .ldaIndX op8 => Sys2Proof.Machine.execLdaIndX op8 s
  | .ldaZp op8 => Sys2Proof.Machine.execLdaZp op8 s
  | .ldaAbs address => Sys2Proof.Machine.execLdaAbs address s
  | .ldaIndY op8 => Sys2Proof.Machine.execLdaIndY op8 s
  | .ldaZpX op8 => Sys2Proof.Machine.execLdaZpX op8 s
  | .ldaAbsY address => Sys2Proof.Machine.execLdaAbsY address s
  | .ldaAbsX address => Sys2Proof.Machine.execLdaAbsX address s

end Sys2Proof.Machine
end

