-- ==== Sys2Proof/Machine/Fetch.lean ====
section
/-! DEFINITION. The fetch unit (40_fetch_execute.md R61), and placing an instruction where the next step fetches it. -/

namespace Sys2Proof.Machine

/-- The byte `k` places after pc, modulo 65536 (30_encoding.md R48). -/
def byteAtPc (s : State) (k : Nat) : Byte := readByte s.mem (s.pc + BitVec.ofNat 16 k)

/-- The fetch: the opcode's address `p`, the opcode, and the state with pc past it (R61). -/
def fetch (s : State) : Word × Byte × State := (s.pc, byteAtPc s 0, s.advancePc 1)

/-- The instruction whose opcode is at pc, or the kind of fault that raises (R62). Its operand bytes are the ones after
the opcode; reads have no side effect, so reading them at decode is not observable (41_addressing_modes.md R84). -/
def decodeAtPc (s : State) : Except FaultKind Instr :=
  decodeInstr s.extLda (byteAtPc s 0) (byteAtPc s 1) (byteAtPc s 2)

/-- The opcode is in the map only with `EXT_LDA` = true (30_encoding.md R54). -/
def needsExtLda (op : Byte) : Bool :=
  (decodeOpcode false op).isNone && (decodeOpcode true op).isSome

/-- A table word placed as the next instruction: its bytes stored from pc on, `EXT_LDA` on if its opcode needs it
(entry 1), the sequencer `Running` and so no fault record, as `run` after a `load` leaves them (entry 2). -/
def placeFetchWord (s : State) (nbits w : Nat) : State :=
  { s with
    mem := writeBytes s.mem s.pc [tableByte nbits w 0, tableByte nbits w 1, tableByte nbits w 2]
    seq := .running
    fault := none
    extLda := s.extLda || needsExtLda (tableByte nbits w 0) }

end Sys2Proof.Machine
end

