-- ==== Sys2Proof/Machine/Sequencer.lean ====
section
/-! DEFINITION. One step of the control sequencer (40_fetch_execute.md R65, R66). -/

namespace Sys2Proof.Machine

/-- The step of a `Running` machine (R65): fetch, decode, and run the handler on the fetched state, or raise the fault of
a rejected opcode before any handler runs (60_exceptions.md R104). -/
def runningStep (s : State) : Host.Outcome State Fault Refusal :=
  match fetch s with
  | (p, op, s1) =>
    match decodeAtPc s with
    | .error kind => .next (raiseFault kind op p s1)
    | .ok i => exec i s1

/-- What a `Faulted` machine answers instead of a step: its fault record, surfaced to the caller (R66, R69; entry 4). -/
def faultedStep (s : State) : Host.Outcome State Fault Refusal :=
  match s.fault with
  | some f => .fault f
  | none => .refused (.notRunning .faulted)

/-- One step: only a `Running` machine takes one (R65, R66; entry 5). -/
def sequencerStep (s : State) : Host.Outcome State Fault Refusal :=
  match s.seq with
  | .running => runningStep s
  | .unloaded => .refused (.notRunning .unloaded)
  | .loaded => .refused (.notRunning .loaded)
  | .halted => .refused (.notRunning .halted)
  | .faulted => faultedStep s

end Sys2Proof.Machine
end

