-- ==== Sys2Proof/Machine/Step.lean ====
section
/-! DEFINITION. The step function and the placement of the next instruction, under their fixed names. -/

namespace Sys2Proof.Machine

/-- One whole instruction (40_fetch_execute.md R60, R65). -/
def step (s : State) : Host.Outcome State Fault Refusal := sequencerStep s

/-- `s` with the instruction of a table word placed so that the very next step runs it (entry 2). -/
def State.withFetchWord (s : State) (nbits w : Nat) : State := placeFetchWord s nbits w

end Sys2Proof.Machine
end

