-- ==== Sys2Proof/Machine/HostOps.lean ====
section
/-! DEFINITION. The host interface (70_reset_and_hazards.md R118-R125, 40_fetch_execute.md R67-R71). A host operation acts
between runs; while `Running` it is refused (R123; entry 14). -/

namespace Sys2Proof.Machine

/-- A host operation other than observation (R119-R121, R67). -/
inductive HostOp where
  /-- `load(program)` (R120). -/
  | load (program : List Byte)
  /-- `reset` (R119). -/
  | reset
  /-- The host write port (R121). -/
  | write (address : Word) (value : Byte)
  /-- The first line of `run`: admission and `seq <- Running` (R67). -/
  | beginRun
  deriving DecidableEq, Repr

/-- The memory `load` leaves: the program's bytes from `LOAD_BASE`, then the entry address at the reset vector (R120,
R125; every other byte keeps its value, D18). -/
def loadMemory (program : List Byte) (m : Memory) : Memory :=
  writeWord (writeBytes m Config.loadBase program) Config.resetVector Config.loadEntry

/-- `reset` (R119), admitted from every state but `Running` (D9). -/
def hostReset (s : State) : Host.Outcome State Fault Refusal :=
  if s.seq = .running then .refused .hostWhileRunning else .next (resetCore s)

/-- `load(program)` (R120), refused for more than 32768 bytes (R123, D8). -/
def hostLoad (program : List Byte) (s : State) : Host.Outcome State Fault Refusal :=
  if s.seq = .running then .refused .hostWhileRunning
  else if Config.maxProgramLen < program.length then .refused .programTooLarge
  else .next (resetCore { s with mem := loadMemory program s.mem })

/-- The host write port (R121): one byte of memory and nothing else. -/
def hostWrite (address : Word) (value : Byte) (s : State) : Host.Outcome State Fault Refusal :=
  if s.seq = .running then .refused .hostWhileRunning
  else .next { s with mem := writeByte s.mem address value }

/-- Admission of `run` (R67, R123): from `Loaded` and `Halted` the sequencer goes to `Running` and nothing is reset. -/
def beginRun (s : State) : Host.Outcome State Fault Refusal :=
  match s.seq with
  | .unloaded => .refused .runNotLoaded
  | .faulted => .refused .runAfterFault
  | .running => .refused .hostWhileRunning
  | .loaded => .next (s.setSeq .running)
  | .halted => .next (s.setSeq .running)

/-- One host operation. -/
def hostStep (op : HostOp) (s : State) : Host.Outcome State Fault Refusal :=
  match op with
  | .load program => hostLoad program s
  | .reset => hostReset s
  | .write address value => hostWrite address value s
  | .beginRun => beginRun s

/-- The loop of `run`, `while seq = Running: step()` (R67), under fuel. A run cut off by the fuel is left `Running` and has
not ended (R71). -/
def runLoop (fuel : Nat) (s : State) : Host.Outcome State Fault Refusal :=
  match fuel with
  | 0 => .next s
  | n + 1 =>
    match s.seq with
    | .running =>
      match step s with
      | .next t => runLoop n t
      | .fault f => .fault f
      | .refused r => .refused r
    | _ => .next s

/-- `run` (R67): admission, then the loop. -/
def hostRun (fuel : Nat) (s : State) : Host.Outcome State Fault Refusal :=
  match beginRun s with
  | .next t => runLoop fuel t
  | .fault f => .fault f
  | .refused r => .refused r

/-- What `run` returns to the host (R69). -/
inductive RunOutcome where
  | halted
  | fault (record : Fault)
  deriving DecidableEq, Repr

/-- The outcome of the last `run`, read off the present state (R69, R122; entry 17): `Halted` in `Halted`, the fault record in
`Faulted`, `none` elsewhere. In `Loaded` it is therefore `none` although a run may have ended before the last `load` or `reset`:
no rule says what the host reads there, and `none` is the model's choice (DESIGN CHOICE, entry 20). -/
def runOutcome (s : State) : Option RunOutcome :=
  match s.seq with
  | .halted => some .halted
  | .faulted => s.fault.map .fault
  | _ => none

/-- The observable surface, apart from memory, which the host reads byte by byte (10_state.md R31, R122). -/
structure Observation where
  accumulator : Byte
  registerX : Byte
  registerY : Byte
  status : Byte
  programCounter : Word
  outcome : Option RunOutcome
  deriving DecidableEq, Repr

/-- Observation between runs (R122): it changes nothing, and there is none while `Running` (R71; entry 14). The outcome in it is
`runOutcome`'s (entries 17 and 20). -/
def observe (s : State) : Option Observation :=
  if s.seq = .running then none
  else some {
    accumulator := s.accumulator
    registerX := s.registerX
    registerY := s.registerY
    status := s.status
    programCounter := s.pc
    outcome := runOutcome s }

/-- Observation of one memory byte between runs (R122). -/
def observeByte (s : State) (a : Word) : Option Byte :=
  if s.seq = .running then none else some (readByte s.mem a)

end Sys2Proof.Machine
end

