-- ==== Sys2Proof/Safety.lean ====
section
/-! DEFINITION. The terms claims use: reachable states, the invariant, and good and bad ends of a run. -/

namespace Sys2Proof.Machine

/-- A state some history of host operations and steps leaves, from a newly built CORE (40_fetch_execute.md R68). -/
inductive Reachable : State → Prop where
  | construct (extLda : Bool) : Reachable (State.constructWith extLda)
  | step (s t : State) (h : Reachable s) (e : Machine.step s = .next t) : Reachable t
  | host (op : HostOp) (s t : State) (h : Reachable s) (e : hostStep op s = .next t) : Reachable t

/-- The invariant of the machine. -/
structure Inv (s : State) : Prop where
  /-- Memory is in its canonical form. -/
  memory : s.mem.wf = true
  /-- A fault record is held exactly when the sequencer is `Faulted` (10_state.md R28). -/
  record : s.fault.isSome = true ↔ s.seq = .faulted
  /-- Y is 0x00 (10_state.md R18). -/
  yZero : s.registerY = 0x00
  /-- `status` is 0x00, 0x02 or 0x80: the reserved bits are 0, and Z and N are never both 1 (10_state.md R25). -/
  flags : s.status = 0x00 ∨ s.status = 0x02 ∨ s.status = 0x80

/-- A run has ended normally (40_fetch_execute.md R70). -/
def GoodEnd (s : State) : Prop := s.seq = .halted

/-- A run has ended at a fault, which is never a good end (40_fetch_execute.md R70, 60_exceptions.md R106). -/
def BadEnd (s : State) : Prop := s.seq = .faulted

/-- A run has ended (40_fetch_execute.md R70); a run cut off by its fuel has not (R71). -/
def Ended (s : State) : Prop := GoodEnd s ∨ BadEnd s

/-- `k` steps from `s` all complete and leave `t`. -/
def Steps (k : Nat) (s t : State) : Prop := Sys2Proof.core.run k s = .next t

end Sys2Proof.Machine
end

