-- ==== Sys2Proof/Certificates/Slice0/Obligations.lean ====
section
/-! DEFINITION. The statements for the provers. Each docstring names the rule of the spec it formalises; where a clause rests on
a decision of 92_eei_decisions.md (the spec's own choice) or on a choice of this model, it says so. -/

open Sys2Proof Sys2Proof.Machine

/-! ### Memory (20_memory.md) -/

/-- R33: a byte written is the byte read there, and no other byte changes. The premise is the canonical form, which
`MemoryWritesKeepCanonicalForm` keeps. -/
def Obligations.WriteByteChangesOneByte : Prop :=
  ∀ (m : Memory) (a b : Word) (v : Byte), m.wf = true →
    readByte (writeByte m a v) b = if b = a then v else readByte m b

/-- The model's canonical form of memory (entry 6) is kept by every operation that writes memory. -/
def Obligations.MemoryWritesKeepCanonicalForm : Prop :=
  ∀ (m : Memory) (a v : Word) (b : Byte) (bytes : List Byte), m.wf = true →
    Memory.wf (writeByte m a b) = true ∧ Memory.wf (writeWord m a v) = true ∧
    Memory.wf (writeBytes m a bytes) = true ∧ Memory.wf (loadMemory bytes m) = true

/-- The model's canonical form (entry 6): memories that read the same at every address are the same data. -/
def Obligations.MemoriesThatReadTheSameAreEqual : Prop :=
  ∀ m n : Memory, m.wf = true → n.wf = true → (∀ a : Word, readByte m a = readByte n a) → m = n

/-- R34, R36: a word is its two bytes, little-endian, and the word at 0xFFFF takes its high byte from 0x0000 (D3). -/
def Obligations.ReadWordIsLittleEndianAndWraps : Prop :=
  ∀ (m : Memory) (a : Word),
    (readWord m a).toNat = 256 * (readByte m (a + 1)).toNat + (readByte m a).toNat ∧
    (readWord m 0xFFFF).toNat = 256 * (readByte m 0x0000).toNat + (readByte m 0xFFFF).toNat

/-- R35, R36: after `writeWord(a, v)` the byte at `a` is `v[7:0]`, the byte at `a +16 1` is `v[15:8]` (at 0x0000 for
`a` = 0xFFFF, D3), every other byte is as before, and the word reads back. -/
def Obligations.WriteWordStoresBothBytes : Prop :=
  ∀ (m : Memory) (a v : Word), m.wf = true →
    (readByte (writeWord m a v) a).toNat = v.toNat % 256 ∧
    (readByte (writeWord m a v) (a + 1)).toNat = v.toNat / 256 ∧
    (∀ b : Word, b ≠ a → b ≠ a + 1 → readByte (writeWord m a v) b = readByte m b) ∧
    readWord (writeWord m a v) a = v

/-! ### Decoding and encoding (30_encoding.md) -/

/-- R53: the base map has exactly these four entries, with these lengths and formats. -/
def Obligations.BaseOpcodeMapIsTheFourRows : Prop :=
  (∀ op : Byte, decodeOpcode false op =
    if op = 0x00 then some ⟨0x00, .brk, .implied⟩
    else if op = 0xA9 then some ⟨0xA9, .lda, .immediate⟩
    else if op = 0xAA then some ⟨0xAA, .tax, .implied⟩
    else if op = 0xE8 then some ⟨0xE8, .inx, .implied⟩
    else none) ∧
  1 + AddrMode.implied.operandLength = 1 ∧ AddrMode.implied.format = .imp ∧
  1 + AddrMode.immediate.operandLength = 2 ∧ AddrMode.immediate.format = .b8

/-- R54: EXT_LDA adds exactly these seven entries, with these lengths and formats, and keeps the base four. The opcode values
are the spec's decision D13. -/
def Obligations.ExtendedOpcodeMapAddsSevenRows : Prop :=
  (∀ op : Byte, decodeOpcode true op =
    if op = 0xA1 then some ⟨0xA1, .lda, .indirectX⟩
    else if op = 0xA5 then some ⟨0xA5, .lda, .zeroPage⟩
    else if op = 0xAD then some ⟨0xAD, .lda, .absolute⟩
    else if op = 0xB1 then some ⟨0xB1, .lda, .indirectY⟩
    else if op = 0xB5 then some ⟨0xB5, .lda, .zeroPageX⟩
    else if op = 0xB9 then some ⟨0xB9, .lda, .absoluteY⟩
    else if op = 0xBD then some ⟨0xBD, .lda, .absoluteX⟩
    else decodeOpcode false op) ∧
  (∀ m ∈ [AddrMode.indirectX, .zeroPage, .indirectY, .zeroPageX], 1 + m.operandLength = 2 ∧ m.format = .b8) ∧
  (∀ m ∈ [AddrMode.absolute, .absoluteY, .absoluteX], 1 + m.operandLength = 3 ∧ m.format = .w16)

/-- Words written out from the encodings of R53 and R54 decode to what they stand for: the four base instructions and four of the
seven extended LDA forms (whose opcode values are the spec's decision D13, entry 13), with two words rejected. -/
def Obligations.WrittenOutWordsDecode : Prop :=
  decode false [0x00] = .ok (.brk, []) ∧
  decode false [0xA9, 0x05] = .ok (.ldaImm 0x05, []) ∧
  decode false [0xAA] = .ok (.tax, []) ∧
  decode false [0xE8] = .ok (.inx, []) ∧
  decode true [0xB5, 0x80] = .ok (.ldaZpX 0x80, []) ∧
  decode true [0xA1, 0xFE] = .ok (.ldaIndX 0xFE, []) ∧
  decode true [0xAD, 0x34, 0x12] = .ok (.ldaAbs 0x1234, []) ∧
  decode true [0xB9, 0x00, 0x20] = .ok (.ldaAbsY 0x2000, []) ∧
  decode false [0xAD, 0x34, 0x12] = .error (.rejected .unimplementedOpcode) ∧
  decode true [0xEA] = .error (.rejected .unimplementedOpcode)

/-- Decoding what the encoder writes for a well-formed instruction gives the instruction back, with every operand value,
whatever bytes follow. -/
def Obligations.DecodeInvertsEncode : Prop :=
  ∀ (extLda : Bool) (i : Instr) (rest : List Byte), i.wf extLda = true →
    decode extLda (encode i ++ rest) = .ok (i, rest)

/-- What decodes is exactly what the encoder writes: the instruction is well-formed and its bytes are the ones read, so each
byte list has one meaning. -/
def Obligations.EncodeInvertsDecode : Prop :=
  ∀ (extLda : Bool) (bytes rest : List Byte) (i : Instr), decode extLda bytes = .ok (i, rest) →
    i.wf extLda = true ∧ bytes = encode i ++ rest

/-- R56, R57: the opcode byte alone fixes the instruction, its mode and its length; every operand byte is legal; and an opcode
outside the map is rejected as UnimplementedOpcode whatever follows it (R55). -/
def Obligations.OpcodeAloneFixesTheInstruction : Prop :=
  ∀ (extLda : Bool) (op : Byte) (rest : List Byte),
    (∀ e, decodeOpcode extLda op = some e →
      (e.mode.operandLength ≤ rest.length →
        ∃ i, decode extLda (op :: rest) = .ok (i, rest.drop e.mode.operandLength) ∧ i.name = e.name ∧
          i.mode = e.mode) ∧
      (rest.length < e.mode.operandLength → decode extLda (op :: rest) = .error .truncated)) ∧
    (decodeOpcode extLda op = none → decode extLda (op :: rest) = .error (.rejected .unimplementedOpcode))

/-! ### Fetch and step (40_fetch_execute.md) -/

/-- R61: the fetch keeps the opcode's address, reads the opcode there, and moves pc by 1 modulo 65536; nothing else changes, and
at 0xFFFF it leaves pc = 0x0000. -/
def Obligations.FetchReadsTheOpcodeAndAdvancesPc : Prop :=
  ∀ s : State,
    (fetch s).1 = s.pc ∧ (fetch s).2.1 = readByte s.mem s.pc ∧
    (fetch s).2.2 = { s with pc := (fetch s).2.2.pc } ∧
    (fetch s).2.2.pc.toNat = (s.pc.toNat + 1) % 65536 ∧
    (s.pc = 0xFFFF → (fetch s).2.2.pc = 0x0000)

/-- R60-R65: a step of a `Running` machine whose bytes at pc decode to an instruction runs it on the fetched state, the one
with pc moved past the opcode; and that instruction is in the map. That the decoder assembles the operand is entry 15. -/
def Obligations.StepRunsTheDecodedInstruction : Prop :=
  ∀ (s : State) (i : Instr) (rest : List Byte), s.seq = .running →
    decode s.extLda [readByte s.mem s.pc, readByte s.mem (s.pc + 1), readByte s.mem (s.pc + 2)] = .ok (i, rest) →
    i.wf s.extLda = true ∧ step s = exec i { s with pc := s.pc + 1 }

/-- R48, R65: wherever memory holds the bytes of a well-formed instruction from pc on (modulo 65536), the step runs that
instruction (that the decoder assembles the operand is entry 15). -/
def Obligations.StepRunsTheEncodedInstruction : Prop :=
  ∀ (s : State) (i : Instr), s.seq = .running → i.wf s.extLda = true →
    (∀ k : Nat, k < (encode i).length → some (readByte s.mem (s.pc + BitVec.ofNat 16 k)) = (encode i)[k]?) →
    step s = exec i { s with pc := s.pc + 1 }

/-- R63, R50: a step of a mapped opcode completes and leaves pc at the opcode's address + 1 + operand length, modulo 65536, BRK
included (D5). -/
def Obligations.StepMovesPcPastTheInstruction : Prop :=
  ∀ (s : State) (e : OpcodeEntry), s.seq = .running → decodeOpcode s.extLda (readByte s.mem s.pc) = some e →
    ∃ t, step s = .next t ∧ t.pc.toNat = (s.pc.toNat + 1 + e.mode.operandLength) % 65536

/-- R55, R103, R104 (the state after a fault is the spec's decision D6): an unmapped opcode faults after the fetch, and only
pc, the sequencer and the fault record change. That the step after it answers the record is entry 4. -/
def Obligations.UnmappedOpcodeFaults : Prop :=
  ∀ s : State, s.seq = .running → decodeOpcode s.extLda (readByte s.mem s.pc) = none →
    step s = .next { s with
      pc := s.pc + 1
      seq := .faulted
      fault := some (.unimplementedOpcode (readByte s.mem s.pc) s.pc) } ∧
    ∀ t, step s = .next t → step t = .fault (.unimplementedOpcode (readByte s.mem s.pc) s.pc)

/-- R83, R107: the only fault a step of this machine can raise is UnimplementedOpcode, and only for an unmapped opcode (that
UnsupportedAddressingMode is unreachable is an inference the spec marks as its own). -/
def Obligations.OnlyUnmappedOpcodesFault : Prop :=
  ∀ s t : State, step s = .next t → t.seq = .faulted →
    decodeOpcode s.extLda (readByte s.mem s.pc) = none ∧
    t.fault = some (.unimplementedOpcode (readByte s.mem s.pc) s.pc)

/-- R66 (the spec's decision D7): a step completes exactly when the sequencer is `Running`. What the model answers elsewhere
is entries 4 and 5. -/
def Obligations.StepCompletesExactlyWhenRunning : Prop :=
  ∀ s : State, ((∃ t, step s = .next t) ↔ s.seq = .running) ∧
    (s.seq ≠ .running → s.seq ≠ .faulted → step s = .refused (.notRunning s.seq)) ∧
    (∀ f, s.seq = .faulted → s.fault = some f → step s = .fault f)

/-- R68, the `Running` rows (the `Faulted` state is the spec's decision D6): BRK leads to `Halted`, an unmapped opcode to
`Faulted`, and every other mapped opcode to `Running`. -/
def Obligations.StepMovesTheSequencer : Prop :=
  ∀ s t : State, step s = .next t →
    (t.seq = .halted ↔ readByte s.mem s.pc = 0x00) ∧
    (t.seq = .faulted ↔ decodeOpcode s.extLda (readByte s.mem s.pc) = none) ∧
    (t.seq = .running ↔ readByte s.mem s.pc ≠ 0x00 ∧ ∃ e, decodeOpcode s.extLda (readByte s.mem s.pc) = some e)

/-- R112 (the spec's decision D21): every instruction of the map can execute at any time. The handler completes in every state,
raises no fault, leaves memory and the parameter alone, and stops the sequencer exactly if it is BRK. -/
def Obligations.EveryInstructionCompletes : Prop :=
  ∀ (i : Instr) (s : State), ∃ t, exec i s = .next t ∧ t.fault = s.fault ∧ t.mem = s.mem ∧ t.extLda = s.extLda ∧
    t.seq = if i = .brk then .halted else s.seq

/-! ### The resolver (41_addressing_modes.md) -/

/-- R74-R77: Immediate and the zero-page modes, with the 8-bit wrap of the indexed ones; no opcode of either map uses
ZeroPage_Y. -/
def Obligations.ResolverOfImmediateAndZeroPageModes : Prop :=
  (∀ (extLda : Bool) (op : Byte) (e : OpcodeEntry), decodeOpcode extLda op = some e → e.mode ≠ .zeroPageY) ∧
  ∀ s : State,
    resolve .immediate s = some s.pc ∧
    (∃ ea, resolve .zeroPage s = some ea ∧ ea.toNat = (readByte s.mem s.pc).toNat) ∧
    (∃ ea, resolve .zeroPageX s = some ea ∧
      ea.toNat = ((readByte s.mem s.pc).toNat + s.registerX.toNat) % 256) ∧
    (∃ ea, resolve .zeroPageY s = some ea ∧
      ea.toNat = ((readByte s.mem s.pc).toNat + s.registerY.toNat) % 256)

/-- R78-R80: the absolute modes, little-endian, with the 16-bit wrap of the indexed ones; the word's second byte is at
`pc +16 1` (D3). -/
def Obligations.ResolverOfAbsoluteModes : Prop :=
  ∀ (s : State) (w : Nat),
    w = 256 * (readByte s.mem (s.pc + 1)).toNat + (readByte s.mem s.pc).toNat →
    (∃ ea, resolve .absolute s = some ea ∧ ea.toNat = w) ∧
    (∃ ea, resolve .absoluteX s = some ea ∧ ea.toNat = (w + s.registerX.toNat) % 65536) ∧
    (∃ ea, resolve .absoluteY s = some ea ∧ ea.toNat = (w + s.registerY.toNat) % 65536)

/-- R81, R82: the indirect modes. The pointer wraps in 8 bits, its second byte is at pointer + 1 modulo 256 (D4), and Indirect_Y
adds Y to the dereferenced address modulo 65536. -/
def Obligations.ResolverOfIndirectModes : Prop :=
  ∀ (s : State) (px py : Nat),
    px = ((readByte s.mem s.pc).toNat + s.registerX.toNat) % 256 → py = (readByte s.mem s.pc).toNat →
    (∃ ea, resolve .indirectX s = some ea ∧
      ea.toNat = 256 * (readByte s.mem (BitVec.ofNat 16 ((px + 1) % 256))).toNat +
        (readByte s.mem (BitVec.ofNat 16 px)).toNat) ∧
    (∃ ea, resolve .indirectY s = some ea ∧
      ea.toNat = (256 * (readByte s.mem (BitVec.ofNat 16 ((py + 1) % 256))).toNat +
        (readByte s.mem (BitVec.ofNat 16 py)).toNat + s.registerY.toNat) % 65536)

/-- R83, R105 (the spec's decision D19): Implied has no address, and the LDA handler asked for it raises
UnsupportedAddressingMode with the opcode and address of the fetch, changing nothing else. -/
def Obligations.ImpliedModeHasNoAddress : Prop :=
  ∀ s : State, resolve .implied s = none ∧
    execLda .implied { s with pc := s.pc + 1 } = .next { s with
      pc := s.pc + 1
      seq := .faulted
      fault := some (.unsupportedAddressingMode (readByte s.mem s.pc) s.pc) }

/-! ### LDA (44_load_lda.md) -/

/-- R98 as the spec writes it: a step of any LDA opcode resolves its mode from memory in the fetched state, loads the byte at
that address, updates the flags from it and moves pc past the operand. (The opcodes other than 0xA9 are D13; the word and
pointer wraps are D3 and D4. That the operand carried by the decoded instruction is the one memory holds is entry 15.) -/
def Obligations.LdaStepLoadsTheResolvedByte : Prop :=
  ∀ (s : State) (op : Byte) (m : AddrMode), s.seq = .running →
    decodeOpcode s.extLda (readByte s.mem s.pc) = some ⟨op, .lda, m⟩ →
    ∃ ea, resolve m { s with pc := s.pc + 1 } = some ea ∧
      step s = .next { s with
        accumulator := readByte s.mem ea
        status := updateZN s.status (readByte s.mem ea)
        pc := s.pc + 1 + BitVec.ofNat 16 m.operandLength }

/-- R98 for each of the eight forms, in every state, on the operand the instruction carries (entry 15): the handler completes,
with A and the flags from the byte its mode names and pc past the operand. -/
def Obligations.LdaFormsComplete : Prop :=
  ∀ (s : State) (b : Byte) (a : Word),
    exec (.ldaImm b) s = .next { s with
      accumulator := b, status := updateZN s.status b, pc := s.pc + 1 } ∧
    (∀ v, v = readByte s.mem (zext16 b) → exec (.ldaZp b) s = .next { s with
      accumulator := v, status := updateZN s.status v, pc := s.pc + 1 }) ∧
    (∀ v, v = readByte s.mem (zext16 (b + s.registerX)) → exec (.ldaZpX b) s = .next { s with
      accumulator := v, status := updateZN s.status v, pc := s.pc + 1 }) ∧
    (∀ v, v = readByte s.mem a → exec (.ldaAbs a) s = .next { s with
      accumulator := v, status := updateZN s.status v, pc := s.pc + 2 }) ∧
    (∀ v, v = readByte s.mem (a + zext16 s.registerX) → exec (.ldaAbsX a) s = .next { s with
      accumulator := v, status := updateZN s.status v, pc := s.pc + 2 }) ∧
    (∀ v, v = readByte s.mem (a + zext16 s.registerY) → exec (.ldaAbsY a) s = .next { s with
      accumulator := v, status := updateZN s.status v, pc := s.pc + 2 }) ∧
    (∀ lo hi v, lo = readByte s.mem (zext16 (b + s.registerX)) → hi = readByte s.mem (zext16 (b + s.registerX + 1)) →
      v = readByte s.mem (composeWord hi lo) → exec (.ldaIndX b) s = .next { s with
        accumulator := v, status := updateZN s.status v, pc := s.pc + 1 }) ∧
    (∀ lo hi v, lo = readByte s.mem (zext16 b) → hi = readByte s.mem (zext16 (b + 1)) →
      v = readByte s.mem (composeWord hi lo + zext16 s.registerY) → exec (.ldaIndY b) s = .next { s with
        accumulator := v, status := updateZN s.status v, pc := s.pc + 1 })

/-- R92, on the value R98 loads: the handler completes with the operand's value in A (the operand is the one the instruction
carries, entry 15, DEDUCED), and loading 0 sets Zero and clears Negative, loading a byte with bit 7 set does the opposite, and loading any
other byte clears both; in every form of LDA, whatever the flags were. -/
def Obligations.LdaSetsTheFlagsFromTheLoadedByte : Prop :=
  ∀ (i : Instr) (s : State), i.name = .lda →
    ∃ v t, operandValue i.form s = some v ∧ exec i s = .next t ∧ t.accumulator = v ∧
      (v = 0x00 → zeroFlag t.status = true ∧ negativeFlag t.status = false) ∧
      (v ≠ 0x00 → v.getLsbD 7 = false → zeroFlag t.status = false ∧ negativeFlag t.status = false) ∧
      (v.getLsbD 7 = true → zeroFlag t.status = false ∧ negativeFlag t.status = true)

/-- Frame of LDA in all eight forms (R98): X, Y, the sequencer, the fault record, the parameter, the reserved bits of `status`
and every byte of memory are unchanged. -/
def Obligations.LdaFrame : Prop :=
  ∀ (i : Instr) (s t : State), i.name = .lda → exec i s = .next t →
    t.registerX = s.registerX ∧ t.registerY = s.registerY ∧ t.seq = s.seq ∧ t.fault = s.fault ∧
    t.extLda = s.extLda ∧ t.mem = s.mem ∧ (∀ a : Word, readByte t.mem a = readByte s.mem a) ∧
    (∀ k : Nat, k ≠ 1 → k ≠ 7 → t.status.getLsbD k = s.status.getLsbD k)

/-! ### INX, TAX and BRK (45_register_inx_tax.md, 43_control_brk.md) -/

/-- R100, R87: INX adds 1 to X modulo 256, updates the flags from the new X, and is the one byte 0xE8. -/
def Obligations.InxIncrementsX : Prop :=
  (∀ v : Byte, (inc8 v).toNat = (v.toNat + 1) % 256) ∧ encode .inx = [0xE8] ∧
  ∀ s : State,
    exec .inx s = .next { s with registerX := inc8 s.registerX, status := updateZN s.status (inc8 s.registerX) } ∧
    (s.seq = .running → readByte s.mem s.pc = 0xE8 →
      step s = .next { s with
        registerX := inc8 s.registerX
        status := updateZN s.status (inc8 s.registerX)
        pc := s.pc + 1 })

/-- R101, R88: TAX copies A into X, updates the flags from the copied value, and is the one byte 0xAA. -/
def Obligations.TaxCopiesAToX : Prop :=
  (∀ v : Byte, pass v = v) ∧ encode .tax = [0xAA] ∧
  ∀ s : State,
    exec .tax s = .next { s with registerX := s.accumulator, status := updateZN s.status s.accumulator } ∧
    (s.seq = .running → readByte s.mem s.pc = 0xAA →
      step s = .next { s with
        registerX := s.accumulator
        status := updateZN s.status s.accumulator
        pc := s.pc + 1 })

/-- Frame of INX and TAX (R100, R101): A, Y, pc after the fetch, the sequencer, the fault record, the parameter, the reserved
bits of `status` and every byte of memory are unchanged. -/
def Obligations.InxTaxFrame : Prop :=
  ∀ (i : Instr) (s t : State), i = .inx ∨ i = .tax → exec i s = .next t →
    t.accumulator = s.accumulator ∧ t.registerY = s.registerY ∧ t.pc = s.pc ∧ t.seq = s.seq ∧
    t.fault = s.fault ∧ t.extLda = s.extLda ∧ t.mem = s.mem ∧ (∀ a : Word, readByte t.mem a = readByte s.mem a) ∧
    (∀ k : Nat, k ≠ 1 → k ≠ 7 → t.status.getLsbD k = s.status.getLsbD k)

/-- R96 (pc after BRK is the spec's decision D5): BRK sets the sequencer to `Halted`; registers, `status`, the fault record and
memory are unchanged and pc is the BRK's address + 1. -/
def Obligations.BrkHaltsAndChangesNothingElse : Prop :=
  encode .brk = [0x00] ∧
  ∀ s : State,
    exec .brk s = .next { s with seq := .halted } ∧
    (s.seq = .running → readByte s.mem s.pc = 0x00 →
      step s = .next { s with pc := s.pc + 1, seq := .halted })

/-- Frame of BRK (R96): every register, pc after the fetch, every bit of `status`, the fault record, the parameter and every
byte of memory are unchanged. -/
def Obligations.BrkFrame : Prop :=
  ∀ s t : State, exec .brk s = .next t →
    t.accumulator = s.accumulator ∧ t.registerX = s.registerX ∧ t.registerY = s.registerY ∧ t.pc = s.pc ∧
    t.status = s.status ∧ t.fault = s.fault ∧ t.extLda = s.extLda ∧ t.mem = s.mem ∧
    (∀ a : Word, readByte t.mem a = readByte s.mem a)

/-- R97 (an inference the spec marks as its own): after BRK a further `run` goes on at the byte after the BRK and resets
nothing. -/
def Obligations.RunAfterBrkResumesAfterIt : Prop :=
  ∀ s : State, s.seq = .running → readByte s.mem s.pc = 0x00 →
    ∃ t, step s = .next t ∧ t.seq = .halted ∧ beginRun t = .next { s with pc := s.pc + 1 }

/-! ### The flag unit (42_alu_and_flags.md) -/

/-- R90: `updateZN` sets bit 1 if the result is 0 and clears it otherwise, copies bit 7 of the result into bit 7, and leaves
every other bit unchanged. -/
def Obligations.FlagUpdateSetsZAndNOnly : Prop :=
  ∀ (st r : Byte),
    (updateZN st r).getLsbD 1 = decide (r = 0x00) ∧ (updateZN st r).getLsbD 7 = r.getLsbD 7 ∧
    (∀ k : Nat, k ≠ 1 → k ≠ 7 → (updateZN st r).getLsbD k = st.getLsbD k)

/-- R93: updating the flags twice from one result is updating them once. -/
def Obligations.FlagUpdateIsIdempotent : Prop :=
  ∀ (st r : Byte), updateZN (updateZN st r) r = updateZN st r

/-- R91: after an update Zero and Negative are never both set, and the two flags depend on the result alone. (An inference the
spec marks as its own.) -/
def Obligations.ZeroAndNegativeExcludeEachOther : Prop :=
  ∀ (st st' r : Byte),
    ¬ (zeroFlag (updateZN st r) = true ∧ negativeFlag (updateZN st r) = true) ∧
    zeroFlag (updateZN st r) = zeroFlag (updateZN st' r) ∧
    negativeFlag (updateZN st r) = negativeFlag (updateZN st' r)

/-- R23, R94: `status` is written by the flag unit, for LDA, INX and TAX on the value written to the destination register, and by
`reset` (and `load`, which performs it) to 0x00; BRK, a fault, the host write port and the start of a run leave it as it was;
and no step changes a bit other than 1 and 7. -/
def Obligations.StatusIsWrittenByFlagUnitAndResetOnly : Prop :=
  (∀ (i : Instr) (s t : State), exec i s = .next t →
    (i.name = .lda → t.status = updateZN s.status t.accumulator) ∧
    (i.name = .inx ∨ i.name = .tax → t.status = updateZN s.status t.registerX) ∧
    (i.name = .brk → t.status = s.status)) ∧
  (∀ s t : State, step s = .next t →
    (t.seq = .faulted → t.status = s.status) ∧
    (∀ k : Nat, k ≠ 1 → k ≠ 7 → t.status.getLsbD k = s.status.getLsbD k)) ∧
  (∀ (op : HostOp) (s t : State), hostStep op s = .next t →
    ((∃ p, op = .load p) ∨ op = .reset → t.status = 0x00) ∧
    ((∃ a v, op = .write a v) ∨ op = .beginRun → t.status = s.status))

/-- R24 (an inference the spec marks as its own): no instruction reads `status`. Two runs that differ in `status` alone differ in
nothing else after a step. -/
def Obligations.StepDoesNotReadStatus : Prop :=
  ∀ (s t : State) (st : Byte), step s = .next t →
    ∃ st', step { s with status := st } = .next { t with status := st' }

/-! ### Whole-machine rules -/

/-- R38, R46 (an inference the spec marks as its own): no step writes memory. -/
def Obligations.NoStepWritesMemory : Prop :=
  ∀ s t : State, step s = .next t → t.mem = s.mem ∧ ∀ a : Word, readByte t.mem a = readByte s.mem a

/-- R16-R18: which step changes which register. A changes only in LDA, X only in INX and TAX, and Y in no step; among the host
operations only `load` and `reset` change a register, and they zero all three. The parameter `EXT_LDA` is changed by nothing
(entry 1). -/
def Obligations.RegisterWriters : Prop :=
  (∀ s t : State, step s = .next t →
    t.registerY = s.registerY ∧ t.extLda = s.extLda ∧
    (t.accumulator ≠ s.accumulator → ∃ e, decodeOpcode s.extLda (readByte s.mem s.pc) = some e ∧ e.name = .lda) ∧
    (t.registerX ≠ s.registerX → readByte s.mem s.pc = 0xE8 ∨ readByte s.mem s.pc = 0xAA)) ∧
  (∀ (op : HostOp) (s t : State), hostStep op s = .next t →
    t.extLda = s.extLda ∧
    ((∃ p, op = .load p) ∨ op = .reset → t.accumulator = 0x00 ∧ t.registerX = 0x00 ∧ t.registerY = 0x00) ∧
    ((∃ a v, op = .write a v) ∨ op = .beginRun →
      t.accumulator = s.accumulator ∧ t.registerX = s.registerX ∧ t.registerY = s.registerY ∧ t.pc = s.pc))

/-- R4, R52: `EXT_LDA` = true only adds opcodes. A step of an opcode of the base map does the same under either value. -/
def Obligations.ExtLdaOnlyAddsOpcodes : Prop :=
  ∀ (s t : State) (e : OpcodeEntry), decodeOpcode false (readByte s.mem s.pc) = some e →
    step { s with extLda := false } = .next t → step { s with extLda := true } = .next { t with extLda := true }

/-- Every step keeps the invariant: canonical memory, a fault record exactly in `Faulted` (R28), Y = 0x00 (R18), and `status`
one of 0x00, 0x02 and 0x80 (R25). -/
def Obligations.StepKeepsTheInvariant : Prop :=
  ∀ s t : State, Inv s → step s = .next t → Inv t

/-- Every host operation keeps the invariant. -/
def Obligations.HostOperationsKeepTheInvariant : Prop :=
  ∀ (op : HostOp) (s t : State), Inv s → hostStep op s = .next t → Inv t

/-- A newly built CORE (with either `EXT_LDA`) and the state after reset (entry 3) meet the invariant. -/
def Obligations.ConstructionAndResetMeetTheInvariant : Prop :=
  (∀ extLda, Inv (State.constructWith extLda)) ∧ Inv State.reset

/-- R18, R24, R25, R28 over every history of host operations and steps: Y is 0x00, `status` is 0x00, 0x02 or 0x80, its bits 0 and
2-6 are 0, Z and N are never both set, a fault record is held exactly in `Faulted`, and memory is in the model's
canonical form (entry 6). (The rest are inferences the spec marks as its own.) -/
def Obligations.ReachableStatesMeetTheInvariant : Prop :=
  ∀ s : State, Reachable s →
    Inv s ∧ (∀ k : Nat, k ≠ 1 → k ≠ 7 → s.status.getLsbD k = false) ∧
    ¬ (zeroFlag s.status = true ∧ negativeFlag s.status = true)

/-! ### Construction, reset, load and the host interface (70_reset_and_hazards.md) -/

/-- R118: a newly built CORE. -/
def Obligations.ConstructionIsAllZero : Prop :=
  ∀ extLda : Bool, ∃ s, s = State.constructWith extLda ∧
    s.accumulator = 0x00 ∧ s.registerX = 0x00 ∧ s.registerY = 0x00 ∧ s.status = 0x00 ∧ s.pc = 0x0000 ∧
    (∀ a : Word, readByte s.mem a = 0x00) ∧ s.seq = .unloaded ∧ s.fault = none

/-- R119 (admission from every state but `Running`, the cleared record and the target `Loaded` are D9; unchanged memory is D18):
`reset` zeroes the registers and `status`, and loads pc from 0xFFFC (low) and 0xFFFD (high), whatever the state before. -/
def Obligations.ResetLoadsPcFromTheVector : Prop :=
  ∀ s : State, s.seq ≠ .running → ∃ t, hostStep .reset s = .next t ∧
    t.accumulator = 0x00 ∧ t.registerX = 0x00 ∧ t.registerY = 0x00 ∧ t.status = 0x00 ∧
    t.pc.toNat = 256 * (readByte s.mem 0xFFFD).toNat + (readByte s.mem 0xFFFC).toNat ∧
    t.mem = s.mem ∧ t.seq = .loaded ∧ t.fault = none ∧ t.extLda = s.extLda

/-- R120, R125, R41 (the length limit is D8, kept bytes are D18, admission is D9): `load` puts the program at 0x8000, then 0x00 0x80
at the reset vector, then resets; every other byte keeps its value. -/
def Obligations.LoadPlacesTheProgram : Prop :=
  ∀ (s : State) (program : List Byte), s.mem.wf = true → s.seq ≠ .running → program.length ≤ 32768 →
    ∃ t, hostStep (.load program) s = .next t ∧
      t.accumulator = 0x00 ∧ t.registerX = 0x00 ∧ t.registerY = 0x00 ∧ t.status = 0x00 ∧
      t.pc = 0x8000 ∧ t.seq = .loaded ∧ t.fault = none ∧ t.extLda = s.extLda ∧
      readByte t.mem 0xFFFC = 0x00 ∧ readByte t.mem 0xFFFD = 0x80 ∧
      (∀ k : Nat, k < program.length → k ≠ 0x7FFC → k ≠ 0x7FFD →
        some (readByte t.mem (0x8000 + BitVec.ofNat 16 k)) = program[k]?) ∧
      (∀ a : Word, a ≠ 0xFFFC → a ≠ 0xFFFD →
        (a.toNat < 0x8000 ∨ 0x8000 + program.length ≤ a.toNat) → readByte t.mem a = readByte s.mem a)

/-- R121 (the port is the spec's decision D2): between runs the host may write any byte; that byte and nothing else changes. -/
def Obligations.HostWriteChangesOneByte : Prop :=
  ∀ (s : State) (a : Word) (v : Byte), s.mem.wf = true → s.seq ≠ .running →
    ∃ t, hostStep (.write a v) s = .next t ∧ t = { s with mem := t.mem } ∧
      ∀ b : Word, readByte t.mem b = if b = a then v else readByte s.mem b

/-- R122, R31, R71: between runs the host reads the registers, `status`, pc, and every memory byte as the state holds them, and the
outcome of the last run; while `Running` it reads nothing (entry 14). That the outcome is read off the present state is entry 17,
and that it is none in `Loaded` after a later `load` or `reset` is entry 20 (both DESIGN CHOICE). -/
def Obligations.ObservationReadsTheStateBetweenRuns : Prop :=
  ∀ s : State,
    (s.seq ≠ .running →
      (∃ o, observe s = some o ∧ o.accumulator = s.accumulator ∧ o.registerX = s.registerX ∧
        o.registerY = s.registerY ∧ o.status = s.status ∧ o.programCounter = s.pc ∧ o.outcome = runOutcome s) ∧
      ∀ a : Word, observeByte s a = some (readByte s.mem a)) ∧
    (s.seq = .running → observe s = none ∧ ∀ a : Word, observeByte s a = none)

/-- R67, R68, R123 (D6, D7, D8, D9; the refusal while `Running` is entry 14): which host operations each sequencer state admits,
where they lead, and by which name the others are refused. -/
def Obligations.HostOperationAdmission : Prop :=
  ∀ (s : State),
    (s.seq = .running → ∀ op, hostStep op s = .refused .hostWhileRunning) ∧
    (s.seq = .unloaded → hostStep .beginRun s = .refused .runNotLoaded) ∧
    (s.seq = .faulted → hostStep .beginRun s = .refused .runAfterFault) ∧
    (s.seq = .loaded ∨ s.seq = .halted → hostStep .beginRun s = .next { s with seq := .running }) ∧
    (∀ program : List Byte, s.seq ≠ .running → 32768 < program.length →
      hostStep (.load program) s = .refused .programTooLarge) ∧
    (∀ (program : List Byte), s.seq ≠ .running → program.length ≤ 32768 →
      ∃ t, hostStep (.load program) s = .next t ∧ t.seq = .loaded) ∧
    (s.seq ≠ .running → ∃ t, hostStep .reset s = .next t ∧ t.seq = .loaded) ∧
    (∀ a v, s.seq ≠ .running → ∃ t, hostStep (.write a v) s = .next t ∧ t.seq = s.seq)

/-- R106, R111 (D9): `Faulted` is final for its launch. No step completes in it, `run` is refused, and only `load` and `reset`
leave it. -/
def Obligations.OnlyLoadAndResetLeaveFaulted : Prop :=
  ∀ s : State, s.seq = .faulted →
    (¬ ∃ t, step s = .next t) ∧ (∀ fuel, hostRun fuel s = .refused .runAfterFault) ∧
    ∀ (op : HostOp) (t : State), hostStep op s = .next t → t.seq ≠ .faulted →
      ((∃ p, op = .load p) ∨ op = .reset) ∧ t.seq = .loaded ∧ t.fault = none

/-- R46 (D16): a byte the host writes at pc between runs is the opcode the next run fetches first. -/
def Obligations.FetchSeesTheHostWrite : Prop :=
  ∀ (s : State) (v : Byte), s.mem.wf = true → s.seq = .loaded ∨ s.seq = .halted →
    ∃ t u, hostStep (.write s.pc v) s = .next t ∧ hostStep .beginRun t = .next u ∧
      (fetch u).1 = s.pc ∧ (fetch u).2.1 = v

/-- R67, R69, R70 (D7, D23; the fuel and the outcome read off the state are entry 17): an admitted `run` always answers a state. If the run has ended, more fuel changes nothing, and the
outcome is `Halted` in `Halted` and the fault record in `Faulted`; if the fuel cut it off it is still `Running` and has no
outcome (R71). -/
def Obligations.RunReturnsItsOutcome : Prop :=
  ∀ (s : State) (fuel : Nat), Inv s → s.seq = .loaded ∨ s.seq = .halted →
    ∃ t, hostRun fuel s = .next t ∧
      (t.seq = .running ∨ Ended t) ∧
      (Ended t → ∀ more, hostRun (fuel + more) s = .next t) ∧
      (t.seq = .running → runOutcome t = none) ∧
      (GoodEnd t → runOutcome t = some .halted) ∧
      (BadEnd t → ∃ f, t.fault = some f ∧ runOutcome t = some (.fault f))

/-- R72, the bound (an inference the spec marks as its own): where every byte below 0x8000 is 0x00, as in a memory written only by
`load` since construction, every run ends within 32769 steps, from any pc and under either value of `EXT_LDA`. -/
def Obligations.RunsOnLoadedMemoryEnd : Prop :=
  ∀ s : State, s.seq = .running → (∀ a : Word, a.toNat < 0x8000 → readByte s.mem a = 0x00) →
    ∃ (k : Nat) (t : State), k ≤ 32769 ∧ Steps k s t ∧ Ended t

/-- R72, where memory is written only by `load` (an inference the spec marks as its own): after any sequence of loads and resets
from construction, an admitted run ends within 32769 steps. -/
def Obligations.RunsAfterLoadsEnd : Prop :=
  ∀ (extLda : Bool) (programs : List (List Byte)) (s : State),
    s.mem = programs.foldl (fun m p => loadMemory p m) (State.constructWith extLda).mem →
    (∀ p ∈ programs, p.length ≤ 32768) → s.seq = .loaded ∨ s.seq = .halted →
    ∃ t, hostRun 32769 s = .next t ∧ Ended t

/-- R72, the hang (an inference the spec marks as its own): with all 65536 bytes 0xE8 no run ends, and pc wraps from 0xFFFF to
0x0000. -/
def Obligations.AllInxMemoryNeverEnds : Prop :=
  ∀ s : State, s.seq = .running → (∀ a : Word, readByte s.mem a = 0xE8) →
    ∀ k : Nat, ∃ t, Steps k s t ∧ t.seq = .running ∧ t.pc.toNat = (s.pc.toNat + k) % 65536 ∧
      t.registerX.toNat = (s.registerX.toNat + k) % 256
end

