-- ==== Sys2Proof/Laws/Decode.lean ====
section
/-! SUPPORT. Byte order, the opcode map and the decoder, each said once. -/

namespace Sys2Proof

@[simp] theorem zext16_toNat (v : Byte) : (zext16 v).toNat = v.toNat := by
  have := v.isLt
  simp only [zext16, BitVec.truncate_eq_setWidth, BitVec.toNat_setWidth]
  omega

theorem composeWord_toNat (hi lo : Byte) : (composeWord hi lo).toNat = 256 * hi.toNat + lo.toNat := by
  have h1 := hi.isLt
  simp only [composeWord, BitVec.toNat_or, BitVec.toNat_shiftLeft, zext16_toNat]
  rw [Nat.mod_eq_of_lt (by rw [Nat.shiftLeft_eq]; omega), ← Nat.shiftLeft_add_eq_or_of_lt lo.isLt, Nat.shiftLeft_eq]
  omega

@[simp] theorem lowByte_composeWord (hi lo : Byte) : lowByte (composeWord hi lo) = lo := by
  apply BitVec.eq_of_toNat_eq
  have := lo.isLt
  simp only [lowByte, BitVec.extractLsb'_toNat, composeWord_toNat, Nat.shiftRight_zero]
  omega

@[simp] theorem highByte_composeWord (hi lo : Byte) : highByte (composeWord hi lo) = hi := by
  apply BitVec.eq_of_toNat_eq
  have := lo.isLt
  have := hi.isLt
  simp only [highByte, BitVec.extractLsb'_toNat, composeWord_toNat, Nat.shiftRight_eq_div_pow]
  omega

@[simp] theorem composeWord_split (v : Word) : composeWord (highByte v) (lowByte v) = v := by
  apply BitVec.eq_of_toNat_eq
  have := v.isLt
  simp only [composeWord_toNat, highByte, lowByte, BitVec.extractLsb'_toNat, Nat.shiftRight_eq_div_pow]
  omega

/-- A row the decoder gives is a row of the map, under its own opcode. -/
theorem decodeOpcode_mem {extLda : Bool} {op : Byte} {e : OpcodeEntry} (h : decodeOpcode extLda op = some e) :
    e ∈ opcodeMap extLda ∧ e.opcode = op := by
  refine ⟨List.mem_of_find?_eq_some h, ?_⟩
  simpa using List.find?_some h

/-- The rows of the map, whatever `EXT_LDA` is. -/
theorem mem_opcodeMap {extLda : Bool} {e : OpcodeEntry} (h : e ∈ opcodeMap extLda) :
    e ∈ baseMap ∨ (extLda = true ∧ e ∈ extMap) := by
  cases extLda
  · exact .inl h
  · exact (List.mem_append.1 h).imp id fun h => ⟨rfl, h⟩

/-- `ofForm` gives back exactly the instruction with this name and form. -/
theorem ofForm_eq_some {n : Name} {f : OperandForm} {i : Instr} :
    Instr.ofForm n f = some i ↔ i.name = n ∧ i.form = f := by
  constructor
  · intro h
    unfold Instr.ofForm at h
    split at h <;> first | (cases h; exact ⟨rfl, rfl⟩) | cases h
  · rintro ⟨rfl, rfl⟩
    cases i <;> rfl

/-- A well-formed instruction's opcode is its row of the map. -/
theorem decodeOpcode_opcode {extLda : Bool} {i : Instr} (h : i.wf extLda = true) :
    decodeOpcode extLda i.opcode = some ⟨i.opcode, i.name, i.mode⟩ := by
  cases extLda <;> cases i <;> first | rfl | exact absurd h Bool.false_ne_true

/-- What a decoded instruction is: a well-formed one, whose row is the opcode's and whose operand is the two bytes'. -/
theorem decodeInstr_ok {extLda : Bool} {op b1 b2 : Byte} {i : Instr} (h : decodeInstr extLda op b1 b2 = .ok i) :
    ∃ e, decodeOpcode extLda op = some e ∧ i.name = e.name ∧ i.form = assembleOperand e.mode b1 b2 := by
  unfold decodeInstr at h
  split at h
  · cases h
  · rename_i e he
    split at h
    · cases h
    · rename_i j hj
      cases h
      exact ⟨e, he, ofForm_eq_some.1 hj⟩

/-- Every row of the map decodes, whatever the bytes after the opcode (30_encoding.md R56). -/
theorem decodeInstr_of_entry {extLda : Bool} {op : Byte} {e : OpcodeEntry} (h : decodeOpcode extLda op = some e)
    (b1 b2 : Byte) : ∃ i, decodeInstr extLda op b1 b2 = .ok i := by
  have hm := (decodeOpcode_mem h).1
  simp only [decodeInstr, h]
  rcases mem_opcodeMap hm with hm | ⟨-, hm⟩ <;> simp only [baseMap, extMap, List.mem_cons, List.not_mem_nil, or_false] at hm <;>
    rcases hm with rfl | rfl | rfl | rfl | rfl | rfl | rfl <;> exact ⟨_, rfl⟩

/-- The only kind of rejection these maps give (41_addressing_modes.md R83, R85). -/
theorem decodeInstr_error {extLda : Bool} {op b1 b2 : Byte} {k : FaultKind} (h : decodeInstr extLda op b1 b2 = .error k) :
    decodeOpcode extLda op = none ∧ k = .unimplementedOpcode := by
  cases he : decodeOpcode extLda op with
  | none => simp only [decodeInstr, he] at h; cases h; exact ⟨rfl, rfl⟩
  | some e =>
    obtain ⟨i, hi⟩ := decodeInstr_of_entry he b1 b2
    rw [hi] at h
    cases h

/-- An unmapped opcode is rejected by name (30_encoding.md R55). -/
theorem decodeInstr_unmapped {extLda : Bool} {op : Byte} (h : decodeOpcode extLda op = none) (b1 b2 : Byte) :
    decodeInstr extLda op b1 b2 = .error .unimplementedOpcode := by
  simp only [decodeInstr, h]

@[simp] theorem mode_assembleOperand (m : AddrMode) (b1 b2 : Byte) : (assembleOperand m b1 b2).mode = m := by
  cases m <;> rfl

/-- A decoded instruction has the mode of its opcode's row. -/
theorem decodeInstr_mode {extLda : Bool} {op b1 b2 : Byte} {i : Instr} {e : OpcodeEntry}
    (he : decodeOpcode extLda op = some e) (h : decodeInstr extLda op b1 b2 = .ok i) : i.mode = e.mode := by
  obtain ⟨e', he', -, hf⟩ := decodeInstr_ok h
  rw [he] at he'
  cases he'
  rw [Instr.mode, hf, mode_assembleOperand]

/-- The encoder writes as many operand bytes as the mode has (30_encoding.md R50). -/
@[simp] theorem form_bytes_length (f : OperandForm) : f.bytes.length = f.mode.operandLength := by
  cases f <;> rfl

end Sys2Proof
end

