-- ==== Sys2Proof/Laws/State.lean ====
section
/-! SUPPORT. The small lemmas of State: what each update leaves in each field, so that no proof unfolds an update. -/

namespace Sys2Proof.Machine

section SetZN
variable (s : State) (r : Byte)
@[simp] theorem setZN_accumulator : (s.setZN r).accumulator = s.accumulator := rfl
@[simp] theorem setZN_registerX : (s.setZN r).registerX = s.registerX := rfl
@[simp] theorem setZN_registerY : (s.setZN r).registerY = s.registerY := rfl
@[simp] theorem setZN_status : (s.setZN r).status = updateZN s.status r := rfl
@[simp] theorem setZN_pc : (s.setZN r).pc = s.pc := rfl
@[simp] theorem setZN_mem : (s.setZN r).mem = s.mem := rfl
@[simp] theorem setZN_seq : (s.setZN r).seq = s.seq := rfl
@[simp] theorem setZN_fault : (s.setZN r).fault = s.fault := rfl
@[simp] theorem setZN_extLda : (s.setZN r).extLda = s.extLda := rfl
end SetZN

section AdvancePc
variable (s : State) (n : Nat)
@[simp] theorem advancePc_accumulator : (s.advancePc n).accumulator = s.accumulator := rfl
@[simp] theorem advancePc_registerX : (s.advancePc n).registerX = s.registerX := rfl
@[simp] theorem advancePc_registerY : (s.advancePc n).registerY = s.registerY := rfl
@[simp] theorem advancePc_status : (s.advancePc n).status = s.status := rfl
@[simp] theorem advancePc_pc : (s.advancePc n).pc = s.pc + BitVec.ofNat 16 n := rfl
@[simp] theorem advancePc_mem : (s.advancePc n).mem = s.mem := rfl
@[simp] theorem advancePc_seq : (s.advancePc n).seq = s.seq := rfl
@[simp] theorem advancePc_fault : (s.advancePc n).fault = s.fault := rfl
@[simp] theorem advancePc_extLda : (s.advancePc n).extLda = s.extLda := rfl
theorem advancePc_zero : s.advancePc 0 = s := by simp [State.advancePc]
end AdvancePc

section SetSeq
variable (s : State) (q : Seq)
@[simp] theorem setSeq_accumulator : (s.setSeq q).accumulator = s.accumulator := rfl
@[simp] theorem setSeq_registerX : (s.setSeq q).registerX = s.registerX := rfl
@[simp] theorem setSeq_registerY : (s.setSeq q).registerY = s.registerY := rfl
@[simp] theorem setSeq_status : (s.setSeq q).status = s.status := rfl
@[simp] theorem setSeq_pc : (s.setSeq q).pc = s.pc := rfl
@[simp] theorem setSeq_mem : (s.setSeq q).mem = s.mem := rfl
@[simp] theorem setSeq_seq : (s.setSeq q).seq = q := rfl
@[simp] theorem setSeq_fault : (s.setSeq q).fault = s.fault := rfl
@[simp] theorem setSeq_extLda : (s.setSeq q).extLda = s.extLda := rfl
end SetSeq

section WriteReg
variable (s : State) (r : Reg) (v : Byte)
@[simp] theorem writeReg_A_accumulator : (s.writeReg .A v).accumulator = v := rfl
@[simp] theorem writeReg_X_accumulator : (s.writeReg .X v).accumulator = s.accumulator := rfl
@[simp] theorem writeReg_A_registerX : (s.writeReg .A v).registerX = s.registerX := rfl
@[simp] theorem writeReg_X_registerX : (s.writeReg .X v).registerX = v := rfl
@[simp] theorem writeReg_A_registerY : (s.writeReg .A v).registerY = s.registerY := rfl
@[simp] theorem writeReg_X_registerY : (s.writeReg .X v).registerY = s.registerY := rfl
@[simp] theorem writeReg_Y_registerY : (s.writeReg .Y v).registerY = v := rfl
@[simp] theorem writeReg_status : (s.writeReg r v).status = s.status := by cases r <;> rfl
@[simp] theorem writeReg_pc : (s.writeReg r v).pc = s.pc := by cases r <;> rfl
@[simp] theorem writeReg_mem : (s.writeReg r v).mem = s.mem := by cases r <;> rfl
@[simp] theorem writeReg_seq : (s.writeReg r v).seq = s.seq := by cases r <;> rfl
@[simp] theorem writeReg_fault : (s.writeReg r v).fault = s.fault := by cases r <;> rfl
@[simp] theorem writeReg_extLda : (s.writeReg r v).extLda = s.extLda := by cases r <;> rfl
@[simp] theorem readReg_writeReg_same : (s.writeReg r v).readReg r = v := by cases r <;> rfl
theorem readReg_writeReg_other (q : Reg) (h : q ≠ r) : (s.writeReg r v).readReg q = s.readReg q := by
  cases r <;> cases q <;> first | rfl | exact absurd rfl h
end WriteReg

section RaiseFault
variable (k : FaultKind) (op : Byte) (p : Word) (s : State)
@[simp] theorem raiseFault_accumulator : (raiseFault k op p s).accumulator = s.accumulator := rfl
@[simp] theorem raiseFault_registerX : (raiseFault k op p s).registerX = s.registerX := rfl
@[simp] theorem raiseFault_registerY : (raiseFault k op p s).registerY = s.registerY := rfl
@[simp] theorem raiseFault_status : (raiseFault k op p s).status = s.status := rfl
@[simp] theorem raiseFault_pc : (raiseFault k op p s).pc = s.pc := rfl
@[simp] theorem raiseFault_mem : (raiseFault k op p s).mem = s.mem := rfl
@[simp] theorem raiseFault_seq : (raiseFault k op p s).seq = .faulted := rfl
@[simp] theorem raiseFault_fault : (raiseFault k op p s).fault = some (faultRecord k op p) := rfl
@[simp] theorem raiseFault_extLda : (raiseFault k op p s).extLda = s.extLda := rfl
@[simp] theorem faultRecord_kind : (faultRecord k op p).kind = k := by cases k <;> rfl
@[simp] theorem faultRecord_opcode : (faultRecord k op p).opcode = op := by cases k <;> rfl
@[simp] theorem faultRecord_address : (faultRecord k op p).address = p := by cases k <;> rfl
end RaiseFault

section ResetCore
variable (s : State)
@[simp] theorem resetCore_accumulator : (resetCore s).accumulator = 0x00 := rfl
@[simp] theorem resetCore_registerX : (resetCore s).registerX = 0x00 := rfl
@[simp] theorem resetCore_registerY : (resetCore s).registerY = 0x00 := rfl
@[simp] theorem resetCore_status : (resetCore s).status = 0x00 := rfl
@[simp] theorem resetCore_pc : (resetCore s).pc = readWord s.mem Config.resetVector := rfl
@[simp] theorem resetCore_mem : (resetCore s).mem = s.mem := rfl
@[simp] theorem resetCore_seq : (resetCore s).seq = .loaded := rfl
@[simp] theorem resetCore_fault : (resetCore s).fault = none := rfl
@[simp] theorem resetCore_extLda : (resetCore s).extLda = s.extLda := rfl
end ResetCore

/-- `State.reset` is what `reset` leaves of a newly built CORE (70_reset_and_hazards.md R118, R119). -/
theorem reset_eq_resetCore_construction : State.reset = resetCore State.construction := rfl

end Sys2Proof.Machine
end

