-- ==== Sys2Proof/Laws/Exec.lean ====
section
/-! SUPPORT. What the handlers can do, said once: every proof about `exec` cites these lemmas. -/

namespace Sys2Proof.Machine

/-- Every form but Implied has a value to load (41_addressing_modes.md R74-R83). -/
theorem operandValue_of_mode {f : OperandForm} (h : f.mode ≠ .implied) (s : State) :
    ∃ v, operandValue f s = some v := by
  cases f <;> first | exact ⟨_, rfl⟩ | exact absurd rfl h

/-- The LDA handler on a form that has a value (44_load_lda.md R98). -/
theorem execLda_of_value {f : OperandForm} {s : State} {v : Byte} (h : operandValue f s = some v) :
    execLda f s = .next (((s.writeReg .A v).setZN v).advancePc f.mode.operandLength) := by
  simp only [execLda, h]

/-- The LDA handler on a form without a resolution rule (60_exceptions.md R105). -/
theorem execLda_of_none {f : OperandForm} {s : State} (h : operandValue f s = none) :
    execLda f s =
      .next (raiseFault .unsupportedAddressingMode (readByte s.mem (s.pc - 1)) (s.pc - 1) s) := by
  simp only [execLda, h]

/-- Every LDA arm of `exec` is the shared handler on the instruction's form. -/
theorem exec_lda {i : Instr} (h : i.name = .lda) (s : State) : exec i s = execLda i.form s := by
  cases i <;> first | rfl | exact Name.noConfusion h

theorem form_mode_of_lda {i : Instr} (h : i.name = .lda) : i.form.mode ≠ .implied := by
  cases i <;> first | exact AddrMode.noConfusion | exact Name.noConfusion h

/-- Everything `exec` can do: BRK halts, and every other instruction writes one register and the flags from one value and
moves pc past its operand. -/
theorem exec_cases (i : Instr) (s : State) :
    (i = .brk ∧ exec i s = .next (s.setSeq .halted)) ∨
    (i = .inx ∧ exec i s = .next ((s.writeReg .X (s.registerX + 1)).setZN (s.registerX + 1))) ∨
    (i = .tax ∧ exec i s = .next ((s.writeReg .X s.accumulator).setZN s.accumulator)) ∨
    (i.name = .lda ∧ ∃ v, operandValue i.form s = some v ∧
      exec i s = .next (((s.writeReg .A v).setZN v).advancePc i.mode.operandLength)) := by
  cases hn : i.name with
  | brk => left; cases i <;> first | exact ⟨rfl, rfl⟩ | exact Name.noConfusion hn
  | inx => right; left; cases i <;> first | exact ⟨rfl, rfl⟩ | exact Name.noConfusion hn
  | tax => right; right; left; cases i <;> first | exact ⟨rfl, rfl⟩ | exact Name.noConfusion hn
  | lda =>
    obtain ⟨v, hv⟩ := operandValue_of_mode (form_mode_of_lda hn) s
    exact .inr (.inr (.inr ⟨rfl, v, hv, (exec_lda hn s).trans (execLda_of_value hv)⟩))

end Sys2Proof.Machine
end

