-- ==== Sys2Proof/Laws/Flags.lean ====
section
/-! SUPPORT. The flag unit, bit by bit (42_alu_and_flags.md R90). -/

namespace Sys2Proof.Machine

/-- The four shapes an update has: Zero and Negative come from the result, everything else is masked in. -/
theorem updateZN_eq (status r : Byte) :
    updateZN status r =
      (status &&& 0x7D) ||| (if r.getLsbD 7 then 0x80 else 0x00) ||| (if r = 0x00 then 0x02 else 0x00) := by
  simp only [updateZN, zBit, nBit]
  split <;> split <;> rfl

/-- Every bit of the updated `status`: bit 1 and bit 7 from the result, the others as they were. -/
theorem updateZN_getLsbD (status r : Byte) (k : Nat) (hk : k < 8) :
    (updateZN status r).getLsbD k =
      if k = 1 then decide (r = 0) else if k = 7 then r.getLsbD 7 else status.getLsbD k := by
  rw [updateZN_eq]
  have hk' : k = 0 ∨ k = 1 ∨ k = 2 ∨ k = 3 ∨ k = 4 ∨ k = 5 ∨ k = 6 ∨ k = 7 := by omega
  cases hn : r.getLsbD 7 <;> by_cases hz : r = 0#8 <;> simp only [hz, if_true, if_false, Bool.false_eq_true] <;>
    rcases hk' with rfl | rfl | rfl | rfl | rfl | rfl | rfl | rfl <;> simp [hz]

/-- An update of one of the three reachable values of `status` gives one of them (10_state.md R25). -/
theorem updateZN_reachable {status : Byte} (r : Byte) (h : status = 0x00 ∨ status = 0x02 ∨ status = 0x80) :
    updateZN status r = 0x00 ∨ updateZN status r = 0x02 ∨ updateZN status r = 0x80 := by
  by_cases hz : r = 0
  · subst hz
    rcases h with rfl | rfl | rfl <;> decide
  · rw [updateZN_eq, if_neg hz]
    cases r.getLsbD 7 <;> rcases h with rfl | rfl | rfl <;> decide

end Sys2Proof.Machine
end

