-- ==== Sys2Proof/Laws/Memory.lean ====
section
/-! SUPPORT. Memory: read after write, and every memory operation keeps the canonical form. -/

namespace Sys2Proof.Machine

/-! ### The canonical form -/

theorem wfFrom_cons (lo a : Nat) (v : Byte) (m : Memory) :
    Memory.wfFrom lo ((a, v) :: m) = true ↔
      lo ≤ a ∧ a < 65536 ∧ v ≠ 0 ∧ Memory.wfFrom (a + 1) m = true := by
  simp [Memory.wfFrom, and_assoc]

theorem wfFrom_mono {lo lo' : Nat} {m : Memory} (h : lo' ≤ lo) (hm : Memory.wfFrom lo m = true) :
    Memory.wfFrom lo' m = true := by
  cases m with
  | nil => rfl
  | cons c rest =>
    obtain ⟨a, v⟩ := c
    rw [wfFrom_cons] at hm ⊢
    exact ⟨h.trans hm.1, hm.2⟩

/-- Below the lower bound of a canonical memory nothing is listed. -/
theorem read_below {lo a : Nat} {m : Memory} (hm : Memory.wfFrom lo m = true) (h : a < lo) :
    Memory.read m a = 0 := by
  induction m generalizing lo with
  | nil => rfl
  | cons c rest ih =>
    obtain ⟨k, b⟩ := c
    rw [wfFrom_cons] at hm
    have hne : k ≠ a := by omega
    simp only [Memory.read, hne, if_false]
    exact ih hm.2.2.2 (by omega)

theorem wfFrom_put {lo a : Nat} {v : Byte} {rest : Memory} (h1 : lo ≤ a) (h2 : a < 65536)
    (hr : Memory.wfFrom (a + 1) rest = true) : Memory.wfFrom lo (Memory.put a v rest) = true := by
  unfold Memory.put
  split
  · exact wfFrom_mono (by omega) hr
  · exact (wfFrom_cons ..).2 ⟨h1, h2, ‹_›, hr⟩

theorem read_put {a b : Nat} {v : Byte} {rest : Memory} (hr : Memory.wfFrom (a + 1) rest = true) :
    Memory.read (Memory.put a v rest) b = if b = a then v else Memory.read rest b := by
  unfold Memory.put
  split
  · rename_i hv
    split
    · rename_i hb
      rw [hv, hb, read_below hr (by omega)]
    · rfl
  · simp only [Memory.read, eq_comm]

/-! ### Writing one byte -/

theorem wfFrom_write {lo a : Nat} {m : Memory} (v : Byte) (hm : Memory.wfFrom lo m = true) (h1 : lo ≤ a)
    (h2 : a < 65536) : Memory.wfFrom lo (Memory.write m a v) = true := by
  induction m generalizing lo with
  | nil => exact wfFrom_put h1 h2 rfl
  | cons c rest ih =>
    obtain ⟨k, b⟩ := c
    have hc := (wfFrom_cons ..).1 hm
    simp only [Memory.write]
    split
    · exact wfFrom_put h1 h2 ((wfFrom_cons ..).2 ⟨by omega, hc.2⟩)
    · split
      · subst_vars
        exact wfFrom_put h1 h2 hc.2.2.2
      · exact (wfFrom_cons ..).2 ⟨hc.1, hc.2.1, hc.2.2.1, ih hc.2.2.2 (by omega)⟩

theorem read_write {lo a b : Nat} {m : Memory} (v : Byte) (hm : Memory.wfFrom lo m = true) :
    Memory.read (Memory.write m a v) b = if b = a then v else Memory.read m b := by
  induction m generalizing lo with
  | nil => exact read_put rfl
  | cons c rest ih =>
    obtain ⟨k, c⟩ := c
    have hc := (wfFrom_cons ..).1 hm
    simp only [Memory.write]
    split
    · exact read_put ((wfFrom_cons ..).2 ⟨by omega, hc.2⟩)
    · split
      · rename_i hak
        subst hak
        rw [read_put hc.2.2.2]
        simp only [Memory.read]
        split
        · rfl
        · rw [if_neg (by omega)]
      · simp only [Memory.read, ih hc.2.2.2]
        split
        · rw [if_neg (by omega)]
        · rfl

/-- `writeByte` keeps the canonical form. -/
theorem wf_writeByte {m : Memory} (hm : m.wf = true) (a : Word) (v : Byte) : Memory.wf (writeByte m a v) = true :=
  wfFrom_write v hm (Nat.zero_le _) a.isLt

/-- `writeWord` keeps the canonical form. -/
theorem wf_writeWord {m : Memory} (hm : m.wf = true) (a v : Word) : Memory.wf (writeWord m a v) = true :=
  wf_writeByte (wf_writeByte hm _ _) _ _

/-- `writeBytes` keeps the canonical form. -/
theorem wf_writeBytes {m : Memory} (hm : m.wf = true) (a : Word) (bytes : List Byte) :
    Memory.wf (writeBytes m a bytes) = true := by
  induction bytes generalizing m a with
  | nil => exact hm
  | cons b rest ih => exact ih (wf_writeByte hm a b) (a + 1)

/-- `load`'s writes keep the canonical form. -/
theorem wf_loadMemory {m : Memory} (hm : m.wf = true) (program : List Byte) :
    Memory.wf (loadMemory program m) = true :=
  wf_writeWord (wf_writeBytes hm _ _) _ _

/-- The memory of a newly built CORE is canonical. -/
theorem reset_memory_wf : State.reset.mem.wf = true := rfl

/-- A newly built memory reads 0x00 everywhere (70_reset_and_hazards.md R118). -/
@[simp] theorem readByte_nil (a : Word) : readByte [] a = 0 := rfl

/-- `writeBytes` splits off its first byte. -/
theorem writeBytes_cons (m : Memory) (a : Word) (b : Byte) (rest : List Byte) :
    writeBytes m a (b :: rest) = writeBytes (writeByte m a b) (a + 1) rest := rfl

end Sys2Proof.Machine
end

