-- ==== Sys2Proof/Laws/Step.lean ====
section
/-! SUPPORT. What one step can do, said once, and the placement of the next instruction. -/

namespace Sys2Proof.Machine

@[simp] theorem byteAtPc_zero (s : State) : byteAtPc s 0 = readByte s.mem s.pc := by
  simp [byteAtPc]

/-- A `Running` machine whose bytes decode runs the handler on the fetched state (40_fetch_execute.md R65). -/
theorem step_of_decode {s : State} {i : Instr} (hs : s.seq = .running) (hi : decodeAtPc s = .ok i) :
    step s = exec i (s.advancePc 1) := by
  simp only [step, sequencerStep, hs, runningStep, fetch, hi]

/-- A `Running` machine whose opcode is rejected raises the fault after the fetch (60_exceptions.md R104). -/
theorem step_of_reject {s : State} {k : FaultKind} (hs : s.seq = .running) (hk : decodeAtPc s = .error k) :
    step s = .next (raiseFault k (readByte s.mem s.pc) s.pc (s.advancePc 1)) := by
  simp only [step, sequencerStep, hs, runningStep, fetch, hk, byteAtPc_zero]

/-- Outside `Running` and `Faulted` a step is refused (40_fetch_execute.md R66). -/
theorem step_of_stopped {s : State} (h1 : s.seq ≠ .running) (h2 : s.seq ≠ .faulted) :
    step s = .refused (.notRunning s.seq) := by
  unfold step sequencerStep
  cases hs : s.seq <;> first | rfl | exact absurd hs h1 | exact absurd hs h2

/-- A `Faulted` machine answers its record. -/
theorem step_of_faulted {s : State} {f : Fault} (h1 : s.seq = .faulted) (h2 : s.fault = some f) :
    step s = .fault f := by
  simp only [step, sequencerStep, h1, faultedStep, h2]

/-- No step completes outside `Running`. -/
theorem step_running {s t : State} (h : step s = .next t) : s.seq = .running := by
  unfold step sequencerStep at h
  split at h
  · assumption
  · cases h
  · cases h
  · cases h
  · unfold faultedStep at h
    split at h <;> cases h

/-- Everything a completed step can do: an unmapped opcode faults, or a decoded instruction runs. -/
theorem step_cases {s t : State} (h : step s = .next t) :
    s.seq = .running ∧
    ((decodeOpcode s.extLda (readByte s.mem s.pc) = none ∧
        t = raiseFault .unimplementedOpcode (readByte s.mem s.pc) s.pc (s.advancePc 1)) ∨
      ∃ i e, decodeOpcode s.extLda (readByte s.mem s.pc) = some e ∧ decodeAtPc s = .ok i ∧ i.name = e.name ∧
        i.mode = e.mode ∧ exec i (s.advancePc 1) = .next t) := by
  have hs := step_running h
  refine ⟨hs, ?_⟩
  cases hd : decodeAtPc s with
  | error k =>
    left
    obtain ⟨he, rfl⟩ := decodeInstr_error hd
    rw [step_of_reject hs hd] at h
    cases h
    exact ⟨byteAtPc_zero s ▸ he, rfl⟩
  | ok i =>
    right
    obtain ⟨e, he, hn, -⟩ := decodeInstr_ok hd
    rw [step_of_decode hs hd] at h
    exact ⟨i, e, byteAtPc_zero s ▸ he, rfl, hn, decodeInstr_mode he hd, h⟩

/-- A `Running` machine always completes its step. -/
theorem step_total {s : State} (hs : s.seq = .running) : ∃ t, step s = .next t := by
  cases hd : decodeAtPc s with
  | error k => exact ⟨_, step_of_reject hs hd⟩
  | ok i =>
    rw [step_of_decode hs hd]
    rcases exec_cases i (s.advancePc 1) with ⟨-, h⟩ | ⟨-, h⟩ | ⟨-, h⟩ | ⟨-, v, -, h⟩ <;> exact ⟨_, h⟩

/-- Three bytes stored from an address upward read back (modulo 65536). -/
theorem readByte_writeBytes_three {m : Memory} (hm : m.wf = true) (a : Word) (b0 b1 b2 : Byte) :
    readByte (writeBytes m a [b0, b1, b2]) a = b0 ∧
    readByte (writeBytes m a [b0, b1, b2]) (a + 1) = b1 ∧
    readByte (writeBytes m a [b0, b1, b2]) (a + 2) = b2 := by
  have h1 := wf_writeByte hm a b0
  have h2 := wf_writeByte h1 (a + 1) b1
  have key : ∀ b, readByte (writeBytes m a [b0, b1, b2]) b =
      if b = a + 1 + 1 then b2 else if b = a + 1 then b1 else if b = a then b0 else readByte m b := by
    intro b
    simp only [writeBytes, readByte, writeByte] at *
    rw [read_write _ h2, read_write _ h1, read_write _ hm]
    simp only [← BitVec.toNat_inj]
  refine ⟨?_, ?_, ?_⟩ <;> rw [key]
  · rw [if_neg (by bv_omega), if_neg (by bv_omega), if_pos rfl]
  · rw [if_neg (by bv_omega), if_pos rfl]
  · rw [if_pos (by bv_omega)]

/-- The step after `withFetchWord` runs exactly the instruction the table word is. -/
theorem step_withFetchWord {s : State} (hm : s.mem.wf = true) {nbits w : Nat} {i : Instr}
    (h : decodeTableWord nbits w = some i) :
    step (s.withFetchWord nbits w) = exec i ((s.withFetchWord nbits w).advancePc 1) := by
  apply step_of_decode rfl
  obtain ⟨r0, r1, r2⟩ := readByte_writeBytes_three hm s.pc (tableByte nbits w 0) (tableByte nbits w 1) (tableByte nbits w 2)
  have hd : decodeAtPc (s.withFetchWord nbits w) = decodeInstr (s.extLda || needsExtLda (tableByte nbits w 0))
      (tableByte nbits w 0) (tableByte nbits w 1) (tableByte nbits w 2) := by
    simp only [decodeAtPc, byteAtPc, State.withFetchWord, placeFetchWord, BitVec.add_zero]
    rw [r0, show (BitVec.ofNat 16 1) = 1 from rfl, r1, show (BitVec.ofNat 16 2) = 2 from rfl, r2]
  rw [hd]
  unfold decodeTableWord at h
  split at h
  · cases h
  · rename_i j hj
    cases h
    cases hx : s.extLda
    · cases hn : needsExtLda (tableByte nbits w 0)
      · obtain ⟨e, he, -⟩ := decodeInstr_ok hj
        simp only [needsExtLda, he, Option.isSome_some, Bool.and_true, Option.isNone_eq_false_iff] at hn
        obtain ⟨e', he'⟩ := Option.isSome_iff_exists.1 hn
        have : e' = e := by
          have hmem := decodeOpcode_mem he'
          have : decodeOpcode true (tableByte nbits w 0) = some e' := by
            have hop := hmem.2
            have hm := hmem.1
            simp only [opcodeMap, baseMap, List.mem_cons, List.not_mem_nil, or_false, Bool.false_eq_true,
              if_false] at hm
            rcases hm with rfl | rfl | rfl | rfl <;> rw [← hop] <;> rfl
          exact Option.some.inj (this.symm.trans he)
        subst this
        simp only [decodeInstr, he, Bool.or_false] at hj ⊢
        rw [he']
        exact hj
      · exact hj
    · exact hj

end Sys2Proof.Machine
end

