-- ==== Sys2Proof/Laws/HostOps.lean ====
section
/-! SUPPORT. What a host operation can do, said once. -/

namespace Sys2Proof.Machine

/-- Everything an admitted host operation can do (70_reset_and_hazards.md R119-R121, 40_fetch_execute.md R67). -/
theorem hostStep_cases {op : HostOp} {s t : State} (h : hostStep op s = .next t) :
    s.seq ≠ .running ∧
    ((∃ p, op = .load p ∧ p.length ≤ 32768 ∧ t = resetCore { s with mem := loadMemory p s.mem }) ∨
      (op = .reset ∧ t = resetCore s) ∨
      (∃ a v, op = .write a v ∧ t = { s with mem := writeByte s.mem a v }) ∨
      (op = .beginRun ∧ (s.seq = .loaded ∨ s.seq = .halted) ∧ t = s.setSeq .running)) := by
  cases op with
  | load p =>
    simp only [hostStep, hostLoad] at h
    split at h
    · cases h
    · split at h
      · cases h
      · cases h
        exact ⟨‹_›, .inl ⟨p, rfl, Nat.le_of_not_lt ‹_›, rfl⟩⟩
  | reset =>
    simp only [hostStep, hostReset] at h
    split at h
    · cases h
    · cases h
      exact ⟨‹_›, .inr (.inl ⟨rfl, rfl⟩)⟩
  | write a v =>
    simp only [hostStep, hostWrite] at h
    split at h
    · cases h
    · cases h
      exact ⟨‹_›, .inr (.inr (.inl ⟨a, v, rfl, rfl⟩))⟩
  | beginRun =>
    simp only [hostStep, beginRun] at h
    split at h <;> cases h
    · rename_i hs
      exact ⟨by simp [hs], .inr (.inr (.inr ⟨rfl, .inl hs, rfl⟩))⟩
    · rename_i hs
      exact ⟨by simp [hs], .inr (.inr (.inr ⟨rfl, .inr hs, rfl⟩))⟩

/-- `run` is admitted from `Loaded` and `Halted` (40_fetch_execute.md R67). -/
theorem beginRun_admitted {s : State} (h : s.seq = .loaded ∨ s.seq = .halted) :
    beginRun s = .next (s.setSeq .running) := by
  unfold beginRun
  rcases h with h | h <;> rw [h]

/-- The loop on a machine that has stopped is over (40_fetch_execute.md R67). -/
theorem runLoop_stopped {s : State} (h : s.seq ≠ .running) (n : Nat) : runLoop n s = .next s := by
  cases n with
  | zero => rfl
  | succ n =>
    unfold runLoop
    split
    · exact absurd ‹_› h
    · rfl

/-- The loop on a `Running` machine takes one step and goes on. -/
theorem runLoop_running {s t : State} (h : step s = .next t) (n : Nat) : runLoop (n + 1) s = runLoop n t := by
  have hs := step_running h
  simp only [runLoop, hs, h]

end Sys2Proof.Machine
end

