-- ==== Sys2Proof/Laws/PerInstr.lean ====
section
/-! SUPPORT. Statements for all instructions, one lemma per constructor. The family `OpcodeRow`: an instruction's opcode
is looked up to its own row of the map, and its encoding is as long as its mode says (30_encoding.md R50, R53, R54). -/

namespace Sys2Proof.Laws.OpcodeRow

/-- The opcode of `i` is mapped to `i`'s instruction and mode, in the base map exactly if `i` is well-formed there, and
`encode i` has 1 + operand length bytes. -/
def Statement (i : Instr) : Prop :=
  decodeOpcode true i.opcode = some ⟨i.opcode, i.name, i.mode⟩ ∧
  (decodeOpcode false i.opcode).isSome = i.wf false ∧
  (encode i).length = 1 + i.mode.operandLength

theorem brk : Statement .brk := ⟨rfl, rfl, rfl⟩
theorem ldaImm (op8 : Byte) : Statement (.ldaImm op8) := ⟨rfl, rfl, rfl⟩
theorem tax : Statement .tax := ⟨rfl, rfl, rfl⟩
theorem inx : Statement .inx := ⟨rfl, rfl, rfl⟩
theorem ldaIndX (op8 : Byte) : Statement (.ldaIndX op8) := ⟨rfl, rfl, rfl⟩
theorem ldaZp (op8 : Byte) : Statement (.ldaZp op8) := ⟨rfl, rfl, rfl⟩
theorem ldaAbs (address : Word) : Statement (.ldaAbs address) := ⟨rfl, rfl, rfl⟩
theorem ldaIndY (op8 : Byte) : Statement (.ldaIndY op8) := ⟨rfl, rfl, rfl⟩
theorem ldaZpX (op8 : Byte) : Statement (.ldaZpX op8) := ⟨rfl, rfl, rfl⟩
theorem ldaAbsY (address : Word) : Statement (.ldaAbsY address) := ⟨rfl, rfl, rfl⟩
theorem ldaAbsX (address : Word) : Statement (.ldaAbsX address) := ⟨rfl, rfl, rfl⟩

end Sys2Proof.Laws.OpcodeRow
end

