-- ==== Sys2Proof/Tests/Slice0.lean ====
section
/-! SUPPORT. Tests on fixed values, taken from the spec's worked examples and test vectors (each names its vector in
95_test_vectors.md or its rule), and, for every obligation with hypotheses, a witness that meets them. -/

namespace Sys2Proof.Tests.Slice0

open Sys2Proof.Machine

/-! ### Helpers -/

/-- A running machine with these memory cells and this pc; everything else is as after reset. -/
def at_ (mem : Memory) (pc : Word) : State := { State.reset with mem := mem, pc := pc, seq := .running }

/-- The state an outcome holds, if it is a next state. -/
def after (o : Host.Outcome State Fault Refusal) : Option State :=
  match o with
  | .next s => some s
  | .fault _ => none
  | .refused _ => none

/-- Accumulator, X, `status` and pc after an outcome, in this order. -/
def axsp (o : Host.Outcome State Fault Refusal) : Option (Byte × Byte × Byte × Word) :=
  (after o).map fun s => (s.accumulator, s.registerX, s.status, s.pc)

/-- pc, the sequencer's state and the fault record after an outcome. -/
def psf (o : Host.Outcome State Fault Refusal) : Option (Word × Seq × Option Fault) :=
  (after o).map fun s => (s.pc, s.seq, s.fault)

/-- The refusal an outcome holds. -/
def refusal (o : Host.Outcome State Fault Refusal) : Option Refusal :=
  match o with
  | .next _ => none
  | .fault _ => none
  | .refused r => some r

/-! ### Well-formedness: an instruction outside the map of EXT_LDA = false is refused (30_encoding.md R54) -/

theorem test_wf_refuses_extended_in_base : Instr.wf false (.ldaZp 0x10) = false := by decide
theorem test_wf_accepts_extended_with_ext : Instr.wf true (.ldaZp 0x10) = true := by decide
theorem test_wf_accepts_base : Instr.wf false (.ldaImm 0x10) = true := by decide

/-! ### Decoding: one word for each constructor, written from 30_encoding.md R49, R53, R54 (vectors E1-E13) -/

theorem test_decode_brk : decode false [0b00000000] = .ok (.brk, []) := by decide
theorem test_decode_ldaImm : decode false [0b10101001, 0x05] = .ok (.ldaImm 0x05, []) := by decide
theorem test_decode_tax : decode false [0b10101010] = .ok (.tax, []) := by decide
theorem test_decode_inx : decode false [0b11101000] = .ok (.inx, []) := by decide
theorem test_decode_ldaIndX : decode true [0b10100001, 0x20] = .ok (.ldaIndX 0x20, []) := by decide
theorem test_decode_ldaZp : decode true [0b10100101, 0x10] = .ok (.ldaZp 0x10, []) := by decide
theorem test_decode_ldaAbs : decode true [0b10101101, 0x34, 0x12] = .ok (.ldaAbs 0x1234, []) := by decide
theorem test_decode_ldaIndY : decode true [0b10110001, 0x40] = .ok (.ldaIndY 0x40, []) := by decide
theorem test_decode_ldaZpX : decode true [0b10110101, 0x80] = .ok (.ldaZpX 0x80, []) := by decide
theorem test_decode_ldaAbsY : decode true [0b10111001, 0x00, 0x20] = .ok (.ldaAbsY 0x2000, []) := by decide
theorem test_decode_ldaAbsX : decode true [0b10111101, 0xFF, 0xFE] = .ok (.ldaAbsX 0xFEFF, []) := by decide
theorem test_decode_E5 : decode false [0xA5, 0x10] = .error (.rejected .unimplementedOpcode) := by decide
theorem test_decode_E12 : decode true [0xB6, 0x10] = .error (.rejected .unimplementedOpcode) := by decide
theorem test_decode_truncated : decode true [0xAD, 0x34] = .error .truncated := by decide
theorem test_decode_E13_base :
    ((List.range 256).filter fun n => (decodeOpcode false (BitVec.ofNat 8 n)).isSome).length = 4 := by decide
theorem test_decode_E13_ext :
    ((List.range 256).filter fun n => (decodeOpcode true (BitVec.ofNat 8 n)).isSome).length = 11 := by decide
theorem test_tableWord_ldaAbs : decodeTableWord 24 0x1234AD = some (.ldaAbs 0x1234) := by decide
theorem test_tableWord_short : decodeTableWord 8 0xA9 = some (.ldaImm 0x00) := by decide
theorem test_tableWord_unmapped : decodeTableWord 8 0xEA = none := by decide
theorem test_withFetchWord_runs_extended :
    axsp (step (State.reset.withFetchWord 24 0x0001AD)) = some (0x01, 0x00, 0x00, 0x0003) := by decide

/-! ### Memory, fetch, ALU and flag unit (vectors M3, M4, F2, U4, Z7-Z9) -/

theorem test_M3_readWord_wraps : readWord [(0x0000, 0xAB), (0xFFFF, 0xCD)] 0xFFFF = 0xABCD := by decide
theorem test_M4_writeWord_wraps : writeWord [] 0xFFFF 0x1234 = [(0x0000, 0x12), (0xFFFF, 0x34)] := by decide
theorem test_write_of_zero_unlists : writeByte [(0x0010, 0x55)] 0x0010 0x00 = [] := by decide
theorem test_F2_fetch_wraps : (fetch (at_ [(0xFFFF, 0xE8)] 0xFFFF)).2.2.pc = 0x0000 := by decide
theorem test_U4_inc8_wraps : inc8 0xFF = 0x00 := by decide
theorem test_Z7_flags_masked : updateZN 0xFF 0x01 = 0x7D := by decide
theorem test_Z8_flags_zero : updateZN 0xFF 0x00 = 0x7F := by decide
theorem test_Z9_flags_negative : updateZN 0x7D 0x80 = 0xFD := by decide

/-! ### The resolver (vectors A6, A8, A10, A13, A14, A17, A21, A22) -/

theorem test_A6 : resolve .zeroPageX { at_ [(0x8001, 0x80)] 0x8001 with registerX := 0xFF } = some 0x007F := by decide
theorem test_A8 : resolve .zeroPageY { at_ [(0x8001, 0xFF)] 0x8001 with registerY := 0x02 } = some 0x0001 := by decide
theorem test_A10 : resolve .absolute (at_ [(0x0000, 0x20)] 0xFFFF) = some 0x2000 := by decide
theorem test_A13 :
    resolve .absoluteX { at_ [(0x8001, 0xFF), (0x8002, 0xFF)] 0x8001 with registerX := 0x01 } = some 0x0000 := by decide
theorem test_A14 :
    resolve .absoluteY { at_ [(0x8001, 0xFE), (0x8002, 0xFF)] 0x8001 with registerY := 0x03 } = some 0x0001 := by decide
theorem test_A17 :
    resolve .indirectX { at_ [(0x0000, 0x30), (0x8001, 0xFE)] 0x8001 with registerX := 0x01 } = some 0x3000 := by decide
theorem test_A21 :
    resolve .indirectY { at_ [(0x0040, 0xFF), (0x0041, 0xFF), (0x8001, 0x40)] 0x8001 with registerY := 0x01 } =
      some 0x0000 := by decide
theorem test_A22 : resolve .implied (at_ [] 0x8001) = none := by decide

/-! ### One step of each instruction (44_load_lda.md R99 and the vectors L, I, T, B, X) -/

theorem test_step_ldaImm_negative :
    axsp (step (at_ [(0x8000, 0xA9), (0x8001, 0x88)] 0x8000)) = some (0x88, 0x00, 0x80, 0x8002) := by decide
theorem test_step_ldaImm_L5_wraps :
    axsp (step (at_ [(0x0000, 0x42), (0xFFFF, 0xA9)] 0xFFFF)) = some (0x42, 0x00, 0x00, 0x0001) := by decide
theorem test_step_ldaZp :
    axsp (step { at_ [(0x0010, 0x55), (0x8000, 0xA5), (0x8001, 0x10)] 0x8000 with extLda := true }) =
      some (0x55, 0x00, 0x00, 0x8002) := by decide
theorem test_step_ldaZp_base_faults :
    psf (step (at_ [(0x0010, 0x55), (0x8000, 0xA5), (0x8001, 0x10)] 0x8000)) =
      some (0x8001, .faulted, some (.unimplementedOpcode 0xA5 0x8000)) := by decide
theorem test_step_ldaZpX :
    axsp (step { at_ [(0x007F, 0x90), (0x8000, 0xB5), (0x8001, 0x80)] 0x8000 with
      extLda := true, registerX := 0xFF }) = some (0x90, 0xFF, 0x80, 0x8002) := by decide
theorem test_step_ldaAbs :
    axsp (step { at_ [(0x8000, 0xAD), (0x8001, 0x34), (0x8002, 0x12)] 0x8000 with extLda := true }) =
      some (0x00, 0x00, 0x02, 0x8003) := by decide
theorem test_step_ldaAbsX :
    axsp (step { at_ [(0x0000, 0x07), (0x8000, 0xBD), (0x8001, 0xFF), (0x8002, 0xFF)] 0x8000 with
      extLda := true, registerX := 0x01 }) = some (0x07, 0x01, 0x00, 0x8003) := by decide
theorem test_step_ldaAbsY :
    axsp (step { at_ [(0x2000, 0x7F), (0x8000, 0xB9), (0x8002, 0x20)] 0x8000 with extLda := true }) =
      some (0x7F, 0x00, 0x00, 0x8003) := by decide
theorem test_step_ldaIndX :
    axsp (step { at_ [(0x0000, 0x30), (0x3000, 0xC0), (0x8000, 0xA1), (0x8001, 0xFE)] 0x8000 with
      extLda := true, registerX := 0x01 }) = some (0xC0, 0x01, 0x80, 0x8002) := by decide
theorem test_step_ldaIndY :
    axsp (step { at_ [(0x0041, 0x20), (0x2000, 0x01), (0x8000, 0xB1), (0x8001, 0x40)] 0x8000 with
      extLda := true }) = some (0x01, 0x00, 0x00, 0x8002) := by decide
theorem test_step_inx_I3 :
    axsp (step { at_ [(0x8000, 0xE8)] 0x8000 with registerX := 0x7F }) = some (0x00, 0x80, 0x80, 0x8001) := by decide
theorem test_step_inx_I5 :
    axsp (step { at_ [(0x8000, 0xE8)] 0x8000 with registerX := 0xFF, status := 0x80 }) =
      some (0x00, 0x00, 0x02, 0x8001) := by decide
theorem test_step_tax_T1 :
    axsp (step { at_ [(0x8000, 0xAA)] 0x8000 with registerX := 0x37 }) = some (0x00, 0x00, 0x02, 0x8001) := by decide
theorem test_step_tax_T4 :
    axsp (step { at_ [(0x8000, 0xAA)] 0x8000 with accumulator := 0xFF }) = some (0xFF, 0xFF, 0x80, 0x8001) := by decide
theorem test_step_brk_B2 : psf (step (at_ [] 0xFFFF)) = some (0x0000, .halted, none) := by decide
theorem test_step_X1_fault :
    psf (step (at_ [(0x8000, 0x02)] 0x8000)) = some (0x8001, .faulted, some (.unimplementedOpcode 0x02 0x8000)) := by decide
theorem test_implied_lda_faults :
    psf (execLda .implied (at_ [(0x8000, 0x02)] 0x8001)) =
      some (0x8001, .faulted, some (.unsupportedAddressingMode 0x02 0x8000)) := by decide
theorem test_fault_codes :
    FaultKind.unimplementedOpcode.code = 1 ∧ FaultKind.unsupportedAddressingMode.code = 2 := by decide

/-! ### Host operations (vectors X2, X4, X5, X7's vector bytes, X11) -/

theorem test_X2_run_after_fault : refusal (hostRun 1 { State.reset with seq := .faulted }) = some .runAfterFault := by decide
theorem test_X4_run_not_loaded : refusal (hostRun 1 State.construction) = some .runNotLoaded := by decide
theorem test_X5_reset_of_construction : after (hostReset State.construction) = some State.reset := by decide
theorem test_X11_load_keeps_stale_bytes :
    (after (hostLoad [0xA9, 0x07] { State.reset with mem := loadMemory [0xA9, 0x05, 0xE8, 0xE8] [] })).map State.mem =
      some [(0x8000, 0xA9), (0x8001, 0x07), (0x8002, 0xE8), (0x8003, 0xE8), (0xFFFD, 0x80)] := by decide
theorem test_load_empty_P_B3 : (after (hostLoad [] State.construction)).map (fun s => (s.pc, s.seq)) =
    some (0x8000, Seq.loaded) := by decide

/-! ### Witnesses: for every obligation with hypotheses, values that meet them together, clause by clause -/

/-- A canonical memory with its lowest and highest address listed. -/
def sampleMem : Memory := [(0x0000, 0x12), (0x8000, 0xE8), (0xFFFF, 0x34)]

/-- A running machine at an LDA immediate. -/
def ldaState : State := at_ [(0x8000, 0xA9), (0x8001, 0x05)] 0x8000

/-- A running machine at an INX at the top of memory. -/
def inxState : State := at_ [(0xFFFF, 0xE8)] 0xFFFF

/-- A running machine at a TAX. -/
def taxState : State := at_ [(0x8000, 0xAA)] 0x8000

/-- A running machine at a BRK at the top of memory. -/
def brkState : State := at_ [] 0xFFFF

/-- A running machine at an unmapped opcode. -/
def badState : State := at_ [(0x8000, 0x02)] 0x8000

/-- A faulted machine, as the step of `badState` leaves it. -/
def faultedState : State :=
  { badState with pc := 0x8001, seq := .faulted, fault := some (.unimplementedOpcode 0x02 0x8000) }

/-- A halted machine. -/
def haltedState : State := { State.reset with seq := .halted }

theorem witness_canonical_memory : sampleMem.wf = true := by decide

theorem witness_MemoriesThatReadTheSameAreEqual :
    Memory.wf (writeByte (writeByte [] 0x0001 5) 0x0002 6) = true ∧
    Memory.wf (writeByte (writeByte [] 0x0002 6) 0x0001 5) = true ∧
    ∀ a, readByte (writeByte (writeByte [] 0x0001 5) 0x0002 6) a =
      readByte (writeByte (writeByte [] 0x0002 6) 0x0001 5) a :=
  ⟨rfl, rfl, fun _ => rfl⟩

theorem witness_WriteWordStoresBothBytes_other_byte :
    sampleMem.wf = true ∧ (0x8000 : Word) ≠ 0xFFFF ∧ (0x8000 : Word) ≠ 0xFFFF + 1 := by decide

theorem witness_DecodeInvertsEncode :
    Instr.wf false (.ldaImm 0xFF) = true ∧ Instr.wf true (.ldaAbsX 0xFFFF) = true := by decide

theorem witness_EncodeInvertsDecode : decode true [0xBD, 0xFF, 0xFF, 0x00] = .ok (.ldaAbsX 0xFFFF, [0x00]) := by decide

theorem witness_OpcodeAloneFixesTheInstruction :
    (decodeOpcode true 0xAD = some ⟨0xAD, .lda, .absolute⟩ ∧
      AddrMode.absolute.operandLength ≤ ([0x34, 0x12] : List Byte).length ∧
      ([0x34] : List Byte).length < AddrMode.absolute.operandLength) ∧
    decodeOpcode true 0xFF = none := by decide

theorem witness_FetchReadsTheOpcodeAndAdvancesPc : inxState.pc = 0xFFFF := by decide

theorem witness_StepRunsTheDecodedInstruction :
    ldaState.seq = .running ∧
    decode ldaState.extLda [readByte ldaState.mem ldaState.pc, readByte ldaState.mem (ldaState.pc + 1),
      readByte ldaState.mem (ldaState.pc + 2)] = .ok (.ldaImm 0x05, [0x00]) := by decide

theorem witness_StepRunsTheEncodedInstruction :
    ldaState.seq = .running ∧ Instr.wf ldaState.extLda (.ldaImm 0x05) = true ∧
    ∀ k, k < (encode (.ldaImm 0x05)).length →
      some (readByte ldaState.mem (ldaState.pc + BitVec.ofNat 16 k)) = (encode (.ldaImm 0x05))[k]? := by
  decide

theorem witness_mapped_opcode_at_pc :
    inxState.seq = .running ∧
    decodeOpcode inxState.extLda (readByte inxState.mem inxState.pc) = some ⟨0xE8, .inx, .implied⟩ := by decide

theorem witness_lda_opcode_at_pc :
    ldaState.seq = .running ∧
    decodeOpcode ldaState.extLda (readByte ldaState.mem ldaState.pc) = some ⟨0xA9, .lda, .immediate⟩ := by decide

theorem witness_unmapped_opcode_at_pc :
    badState.seq = .running ∧ decodeOpcode badState.extLda (readByte badState.mem badState.pc) = none := by decide

theorem witness_OnlyUnmappedOpcodesFault : step badState = .next faultedState ∧ faultedState.seq = .faulted := ⟨rfl, rfl⟩

theorem witness_StepCompletesExactlyWhenRunning :
    inxState.seq = .running ∧ (haltedState.seq ≠ .running ∧ haltedState.seq ≠ .faulted) ∧
    faultedState.seq = .faulted ∧ faultedState.fault = some (.unimplementedOpcode 0x02 0x8000) := by decide

theorem witness_step_completes :
    (∃ t, step inxState = .next t ∧ t.seq = .running ∧ t.registerX ≠ inxState.registerX) ∧
    (∃ t, step ldaState = .next t ∧ t.accumulator ≠ ldaState.accumulator) ∧
    (∃ t, step brkState = .next t ∧ t.seq = .halted) :=
  ⟨⟨_, rfl, by decide⟩, ⟨_, rfl, by decide⟩, ⟨_, rfl, by decide⟩⟩

theorem witness_decodeOpcode_some : decodeOpcode true 0xB5 = some ⟨0xB5, .lda, .zeroPageX⟩ := by decide

theorem witness_LdaFrame :
    (Instr.ldaIndY 0xFF).name = .lda ∧ ∃ t, exec (.ldaIndY 0xFF) ldaState = .next t := ⟨rfl, _, rfl⟩

theorem witness_loaded_values :
    ((0x00 : Byte) = 0x00) ∧ ((0x7F : Byte) ≠ 0x00 ∧ (0x7F : Byte).getLsbD 7 = false) ∧
    (0x80 : Byte).getLsbD 7 = true := by decide

theorem witness_inx_at_pc : inxState.seq = .running ∧ readByte inxState.mem inxState.pc = 0xE8 := by decide
theorem witness_tax_at_pc : taxState.seq = .running ∧ readByte taxState.mem taxState.pc = 0xAA := by decide
theorem witness_brk_at_pc : brkState.seq = .running ∧ readByte brkState.mem brkState.pc = 0x00 := by decide

theorem witness_frames :
    (∃ t, exec .inx inxState = .next t) ∧ (∃ t, exec .tax taxState = .next t) ∧ ∃ t, exec .brk brkState = .next t :=
  ⟨⟨_, rfl⟩, ⟨_, rfl⟩, ⟨_, rfl⟩⟩

theorem witness_reserved_bits : (0 : Nat) ≠ 1 ∧ (0 : Nat) ≠ 7 := by decide

theorem witness_host_operations :
    (∃ t, hostStep (.load [0xE8]) faultedState = .next t ∧ t.seq ≠ .faulted) ∧
    (∃ t, hostStep .reset faultedState = .next t ∧ t.seq ≠ .faulted) ∧
    (∃ t, hostStep (.write 0xFFFC 0xFF) haltedState = .next t) ∧ ∃ t, hostStep .beginRun haltedState = .next t :=
  ⟨⟨_, rfl, by decide⟩, ⟨_, rfl, by decide⟩, ⟨_, rfl⟩, ⟨_, rfl⟩⟩

theorem witness_ExtLdaOnlyAddsOpcodes :
    decodeOpcode false (readByte inxState.mem inxState.pc) = some ⟨0xE8, .inx, .implied⟩ ∧
    ∃ t, step { inxState with extLda := false } = .next t := ⟨rfl, _, rfl⟩

theorem witness_invariant : Inv inxState ∧ (∃ t, step inxState = .next t) ∧ Inv haltedState ∧ Inv faultedState :=
  ⟨⟨rfl, by decide, rfl, .inl rfl⟩, ⟨_, rfl⟩, ⟨rfl, by decide, rfl, .inl rfl⟩, ⟨rfl, by decide, rfl, .inl rfl⟩⟩

theorem witness_reachable : Reachable State.reset :=
  .host .reset State.construction State.reset (.construct false) rfl

theorem witness_load :
    haltedState.mem.wf = true ∧ haltedState.seq ≠ .running ∧ ([0xE8] : List Byte).length ≤ 32768 ∧
    (0 < ([0xE8] : List Byte).length ∧ (0 : Nat) ≠ 0x7FFC ∧ (0 : Nat) ≠ 0x7FFD) ∧
    ((0x7FFF : Word).toNat < 0x8000 ∧ 0x8000 + ([0xE8] : List Byte).length ≤ (0x8001 : Word).toNat) := by decide

theorem witness_load_too_large : 32768 < (List.replicate 32769 (0xE8 : Byte)).length := by
  rw [List.length_replicate]; omega

theorem witness_load_largest : (List.replicate 32768 (0xE8 : Byte)).length ≤ 32768 := by
  rw [List.length_replicate]

theorem witness_admission :
    State.construction.seq = .unloaded ∧ State.reset.seq = .loaded ∧ haltedState.seq = .halted ∧
    faultedState.seq = .faulted ∧ inxState.seq = .running := by decide

theorem witness_run_ends :
    (∃ t, hostRun 1 State.reset = .next t ∧ GoodEnd t) ∧ (∃ t, hostRun 0 State.reset = .next t ∧ t.seq = .running) ∧
    ∃ t, hostRun 1 { badState with seq := .loaded } = .next t ∧ BadEnd t :=
  ⟨⟨_, rfl, rfl⟩, ⟨_, rfl, rfl⟩, ⟨_, rfl, rfl⟩⟩

theorem witness_low_memory_zero :
    (at_ [(0x8000, 0xE8)] 0x8000).seq = .running ∧
    ∀ a : Word, a.toNat < 0x8000 → readByte (at_ [(0x8000, 0xE8)] 0x8000).mem a = 0x00 := by
  refine ⟨rfl, fun a h => ?_⟩
  simp only [at_, readByte, Memory.read]
  rw [if_neg (by omega)]

theorem witness_RunsAfterLoadsEnd :
    ({ haltedState with mem := loadMemory [0xE8] [] } : State).mem =
      ([[0xE8]] : List (List Byte)).foldl (fun m p => loadMemory p m) (State.constructWith false).mem ∧
    (∀ p ∈ ([[0xE8]] : List (List Byte)), p.length ≤ 32768) ∧ haltedState.seq = .halted :=
  ⟨rfl, by decide, rfl⟩

/-- `n` cells of 0xE8 from address `lo` upward. -/
def fillInx (lo n : Nat) : Memory :=
  match n with
  | 0 => []
  | k + 1 => (lo, 0xE8) :: fillInx (lo + 1) k

theorem read_fillInx (lo n a : Nat) (h1 : lo ≤ a) (h2 : a < lo + n) : Memory.read (fillInx lo n) a = 0xE8 := by
  induction n generalizing lo with
  | zero => omega
  | succ n ih =>
    simp only [fillInx, Memory.read]
    split
    · rfl
    · exact ih (lo + 1) (by omega) (by omega)

theorem fillInx_reads_inx (n : Nat) (hn : n = 65536) (a : Word) : readByte (fillInx 0 n) a = 0xE8 :=
  read_fillInx 0 n a.toNat (Nat.zero_le _) (by have := a.isLt; omega)

theorem witness_AllInxMemoryNeverEnds : ∃ s : State, s.seq = .running ∧ ∀ a : Word, readByte s.mem a = 0xE8 :=
  ⟨at_ (fillInx 0 65536) 0x8000, rfl, fillInx_reads_inx 65536 rfl⟩

end Sys2Proof.Tests.Slice0
end

/-! ## Who writes `status` (10_state.md R23, 42_alu_and_flags.md R94) -/

namespace Sys2Proof.Machine

/-- The flag unit keeps the reserved bits (10_state.md R22). -/
theorem updateZN_getLsbD_reserved (status r : Byte) {k : Nat} (h1 : k ≠ 1) (h7 : k ≠ 7) :
    (updateZN status r).getLsbD k = status.getLsbD k := by
  by_cases hk : k < 8
  · rw [updateZN_getLsbD status r k hk, if_neg h1, if_neg h7]
  · rw [BitVec.getLsbD_of_ge _ _ (by omega), BitVec.getLsbD_of_ge _ _ (by omega)]

/-- What a handler leaves in `status` and in the sequencer: only BRK skips the flag unit, and only BRK moves the sequencer. -/
theorem exec_status_cases {i : Instr} {s t : State} (h : exec i s = .next t) :
    (i.name = .brk ∧ t.status = s.status ∧ t.seq = .halted) ∨
    (i.name = .lda ∧ t.status = updateZN s.status t.accumulator ∧ t.seq = s.seq) ∨
    ((i.name = .inx ∨ i.name = .tax) ∧ t.status = updateZN s.status t.registerX ∧ t.seq = s.seq) := by
  rcases exec_cases i s with ⟨rfl, e⟩ | ⟨rfl, e⟩ | ⟨rfl, e⟩ | ⟨hn, v, -, e⟩ <;>
    obtain rfl := Host.Outcome.next.inj (e.symm.trans h)
  · exact .inl ⟨rfl, rfl, rfl⟩
  · exact .inr (.inr ⟨.inl rfl, rfl, rfl⟩)
  · exact .inr (.inr ⟨.inr rfl, rfl, rfl⟩)
  · exact .inr (.inl ⟨hn, rfl, rfl⟩)

/-- A completed step either leaves `status` alone or, without faulting, gives it to the flag unit. -/
theorem step_status_cases {s t : State} (h : step s = .next t) :
    t.status = s.status ∨ (t.seq ≠ .faulted ∧ ∃ r, t.status = updateZN s.status r) := by
  obtain ⟨hs, ⟨-, rfl⟩ | ⟨i, e, -, -, -, -, he⟩⟩ := step_cases h
  · exact .inl rfl
  · have notFaulted (hq : t.seq = s.seq) : t.seq ≠ .faulted := by simp [hq, hs]
    obtain ⟨-, hst, -⟩ | ⟨-, hst, hq⟩ | ⟨-, hst, hq⟩ := exec_status_cases he
    · exact .inl hst
    · exact .inr ⟨notFaulted hq, _, hst⟩
    · exact .inr ⟨notFaulted hq, _, hst⟩

/-- Each handler's `status`: from the destination register of LDA, INX and TAX, and as it was for BRK. -/
theorem exec_status {i : Instr} {s t : State} (h : exec i s = .next t) :
    (i.name = .lda → t.status = updateZN s.status t.accumulator) ∧
    (i.name = .inx ∨ i.name = .tax → t.status = updateZN s.status t.registerX) ∧
    (i.name = .brk → t.status = s.status) := by
  obtain ⟨hn, hst, -⟩ | ⟨hn, hst, -⟩ | ⟨hn | hn, hst, -⟩ := exec_status_cases h <;> simp [hn, hst]

/-- A faulting step leaves `status` as it was (60_exceptions.md R103). -/
theorem step_faulted_status {s t : State} (h : step s = .next t) (hf : t.seq = .faulted) :
    t.status = s.status := by
  obtain hst | ⟨hq, -⟩ := step_status_cases h
  · exact hst
  · exact absurd hf hq

/-- No step changes a reserved bit of `status` (10_state.md R22). -/
theorem step_status_reserved {s t : State} (h : step s = .next t) {k : Nat} (h1 : k ≠ 1) (h7 : k ≠ 7) :
    t.status.getLsbD k = s.status.getLsbD k := by
  obtain hst | ⟨-, r, hst⟩ := step_status_cases h
  · rw [hst]
  · rw [hst, updateZN_getLsbD_reserved _ r h1 h7]

/-- `load` and `reset` clear `status`; the write port and the start of a run leave it as it was. -/
theorem hostStep_status {op : HostOp} {s t : State} (h : hostStep op s = .next t) :
    ((∃ p, op = .load p) ∨ op = .reset → t.status = 0x00) ∧
    ((∃ a v, op = .write a v) ∨ op = .beginRun → t.status = s.status) := by
  obtain ⟨-, ⟨p, rfl, -, rfl⟩ | ⟨rfl, rfl⟩ | ⟨a, v, rfl, rfl⟩ | ⟨rfl, -, rfl⟩⟩ := hostStep_cases h <;> simp

/-- Settles O38: each handler, step and host operation by what it can do to `status`. -/
theorem statusIsWrittenByFlagUnitAndResetOnly : Obligations.StatusIsWrittenByFlagUnitAndResetOnly :=
  ⟨fun _ _ _ h => exec_status h,
    fun _ _ h => ⟨step_faulted_status h, fun _ h1 h7 => step_status_reserved h h1 h7⟩,
    fun _ _ _ h => hostStep_status h⟩

end Sys2Proof.Machine

/-! ### Memory writes (20_memory.md) -/

namespace Sys2Proof.Machine

/-- What a byte reads as after `writeByte` to a canonical memory (20_memory.md R33), at machine addresses. -/
theorem readByte_writeByte {m : Memory} (hm : m.wf = true) (a b : Word) (v : Byte) :
    readByte (writeByte m a v) b = if b = a then v else readByte m b := by
  unfold readByte writeByte
  rw [read_write v hm]
  simp only [BitVec.toNat_inj]

/-- Settles O1: the list-level rule `read_write`, carried to machine addresses. -/
theorem writeByteChangesOneByte : Obligations.WriteByteChangesOneByte :=
  fun _ a b v hm => readByte_writeByte hm a b v

end Sys2Proof.Machine

/-! ### The opcode map (30_encoding.md R52, R53) -/

namespace Sys2Proof.Machine

/-- The decoder's flat lookup, one row at a time (30_encoding.md R52). -/
theorem find?_opcode_cons (e : OpcodeEntry) (rows : List OpcodeEntry) (op : Byte) :
    (e :: rows).find? (fun r => r.opcode == op) =
      if op = e.opcode then some e else rows.find? fun r => r.opcode == op := by
  split
  case isTrue h => exact List.find?_cons_of_pos (beq_iff_eq.2 h.symm)
  case isFalse h => exact List.find?_cons_of_neg fun hb => h (beq_iff_eq.1 hb).symm

/-- The base decoder on every byte: the rows of `baseMap` in turn, then `none`. -/
theorem decodeOpcode_base (op : Byte) : decodeOpcode false op =
    if op = 0x00 then some ⟨0x00, .brk, .implied⟩
    else if op = 0xA9 then some ⟨0xA9, .lda, .immediate⟩
    else if op = 0xAA then some ⟨0xAA, .tax, .implied⟩
    else if op = 0xE8 then some ⟨0xE8, .inx, .implied⟩
    else none := by
  have hbase : decodeOpcode false op = baseMap.find? fun r => r.opcode == op := rfl
  simp only [hbase, baseMap, find?_opcode_cons, List.find?_nil]

/-- Settles O6: the rows of the base map by `decodeOpcode_base`; the lengths and formats are those of the two modes. -/
theorem baseOpcodeMapIsTheFourRows : Obligations.BaseOpcodeMapIsTheFourRows :=
  ⟨decodeOpcode_base, rfl, rfl, rfl, rfl⟩

end Sys2Proof.Machine

/-! ### The fetch unit (40_fetch_execute.md R61) -/

namespace Sys2Proof.Machine

/-- pc moves past `n` bytes modulo 65536, as a number. -/
theorem advancePc_pc_toNat (s : State) (n : Nat) : (s.advancePc n).pc.toNat = (s.pc.toNat + n) % 65536 := by
  simp only [advancePc_pc, BitVec.toNat_add, BitVec.toNat_ofNat, Nat.reducePow, Nat.add_mod_mod]

/-- Past the last address, pc is at the first. -/
theorem advancePc_one_pc_wraps {s : State} (h : s.pc = 0xFFFF) : (s.advancePc 1).pc = 0x0000 := by
  rw [advancePc_pc, h]
  decide

/-- The fetch as a whole: the opcode's address, the byte in memory there, and the state with pc past it (R61). -/
theorem fetch_eq (s : State) : fetch s = (s.pc, readByte s.mem s.pc, s.advancePc 1) := by
  rw [fetch, byteAtPc_zero]

/-- Settles O12: the fetch by `fetch_eq`, and its pc by what `advancePc` does to pc. -/
theorem fetchReadsTheOpcodeAndAdvancesPc : Obligations.FetchReadsTheOpcodeAndAdvancesPc := by
  intro s
  rw [fetch_eq]
  exact ⟨rfl, rfl, rfl, advancePc_pc_toNat s 1, advancePc_one_pc_wraps⟩

end Sys2Proof.Machine

/-! ### The resolver (41_addressing_modes.md R74-R77) -/

namespace Sys2Proof.Machine

/-- R77's remark: ZeroPage_Y has a resolution rule, yet no row of either map names it. -/
theorem opcodeMap_mode_ne_zeroPageY {extLda : Bool} {e : OpcodeEntry} (h : e ∈ opcodeMap extLda) :
    e.mode ≠ .zeroPageY := by
  have base : ∀ r ∈ baseMap, r.mode ≠ .zeroPageY := by decide
  have ext : ∀ r ∈ extMap, r.mode ≠ .zeroPageY := by decide
  obtain hb | ⟨-, he⟩ := mem_opcodeMap h
  · exact base e hb
  · exact ext e he

section Resolve
variable (s : State)
@[simp] theorem resolve_immediate : resolve .immediate s = some s.pc := rfl
@[simp] theorem resolve_zeroPage : resolve .zeroPage s = some (zext16 (readByte s.mem s.pc)) := rfl
@[simp] theorem resolve_zeroPageX :
    resolve .zeroPageX s = some (zext16 (readByte s.mem s.pc + s.registerX)) := rfl
@[simp] theorem resolve_zeroPageY :
    resolve .zeroPageY s = some (zext16 (readByte s.mem s.pc + s.registerY)) := rfl
end Resolve

/-- An indexed zero-page address wraps in 8 bits before it is extended, so it stays in the zero page (R76, R77). -/
theorem zext16_add_toNat (base index : Byte) :
    (zext16 (base + index)).toNat = (base.toNat + index.toNat) % 256 := by
  rw [zext16_toNat, BitVec.toNat_add]

/-- Settles O21: the rows of both maps by `opcodeMap_mode_ne_zeroPageY`, and each mode by its resolution rule, read as a
number. -/
theorem resolverOfImmediateAndZeroPageModes : Obligations.ResolverOfImmediateAndZeroPageModes := by
  refine ⟨fun _ _ _ h => opcodeMap_mode_ne_zeroPageY (decodeOpcode_mem h).1, fun s => ⟨?_, ?_, ?_, ?_⟩⟩
  · exact resolve_immediate s
  · exact ⟨_, resolve_zeroPage s, zext16_toNat _⟩
  · exact ⟨_, resolve_zeroPageX s, zext16_add_toNat _ _⟩
  · exact ⟨_, resolve_zeroPageY s, zext16_add_toNat _ _⟩

end Sys2Proof.Machine

/-! ### The flag unit on its own (42_alu_and_flags.md R90, R93) -/

namespace Sys2Proof.Machine

/-- Zero after an update comes from the result alone (R90). -/
theorem updateZN_getLsbD_zero (status r : Byte) : (updateZN status r).getLsbD 1 = decide (r = 0x00) := by
  rw [updateZN_getLsbD status r 1 (by decide), if_pos rfl]

/-- Negative after an update comes from the result alone (R90). -/
theorem updateZN_getLsbD_negative (status r : Byte) : (updateZN status r).getLsbD 7 = r.getLsbD 7 := by
  rw [updateZN_getLsbD status r 7 (by decide), if_neg (by decide), if_pos rfl]

/-- Settles O35: each of the two flags by its bit, and the reserved bits by what the flag unit keeps. -/
theorem flagUpdateSetsZAndNOnly : Obligations.FlagUpdateSetsZAndNOnly := fun st r =>
  ⟨updateZN_getLsbD_zero st r, updateZN_getLsbD_negative st r, fun _ h1 h7 => updateZN_getLsbD_reserved st r h1 h7⟩

/-- Of two updates the later one decides Zero and Negative, and neither touches a reserved bit. -/
theorem updateZN_updateZN (status r r' : Byte) : updateZN (updateZN status r) r' = updateZN status r' := by
  refine BitVec.eq_of_getLsbD_eq fun k _ => ?_
  by_cases h1 : k = 1
  · rw [h1, updateZN_getLsbD_zero, updateZN_getLsbD_zero]
  · by_cases h7 : k = 7
    · rw [h7, updateZN_getLsbD_negative, updateZN_getLsbD_negative]
    · simp only [updateZN_getLsbD_reserved _ _ h1 h7]

/-- Settles O36: of two updates the later one counts, here for one and the same result. -/
theorem flagUpdateIsIdempotent : Obligations.FlagUpdateIsIdempotent := fun st r => updateZN_updateZN st r r

end Sys2Proof.Machine

/-! ### INX and TAX (45_register_inx_tax.md R100, R101) -/

namespace Sys2Proof.Machine

/-- An instruction without an operand is a row of the base map, so it exists under both values of EXT_LDA. -/
theorem wf_of_form_implied {i : Instr} (hf : i.form = .implied) (extLda : Bool) : i.wf extLda = true := by
  cases i with
  | brk | tax | inx => exact Bool.or_true extLda
  | _ => cases hf

/-- An instruction's opcode decodes to it when the next bytes assemble to its operand (30_encoding.md R51, R52). -/
theorem decodeInstr_opcode {extLda : Bool} {i : Instr} {b1 b2 : Byte} (hw : i.wf extLda = true)
    (hf : assembleOperand i.mode b1 b2 = i.form) : decodeInstr extLda i.opcode b1 b2 = .ok i := by
  have hi : Instr.ofForm i.name i.form = some i := ofForm_eq_some.2 ⟨rfl, rfl⟩
  simp only [decodeInstr, decodeOpcode_opcode hw, hf, hi]

/-- A `Running` machine at the opcode of an instruction without an operand runs its handler, whatever bytes follow. -/
theorem step_of_form_implied {s : State} {i : Instr} (hf : i.form = .implied) (hs : s.seq = .running)
    (hop : readByte s.mem s.pc = i.opcode) : step s = exec i (s.advancePc 1) := by
  refine step_of_decode hs ?_
  rw [decodeAtPc, byteAtPc_zero, hop]
  refine decodeInstr_opcode (wf_of_form_implied hf _) ?_
  rw [Instr.mode, hf]
  rfl

/-- `INC8` as a number, with its wrap (42_alu_and_flags.md R87). -/
theorem inc8_toNat (v : Byte) : (inc8 v).toNat = (v.toNat + 1) % 256 := BitVec.toNat_add v 1

/-- The INX handler's whole next state (R100). -/
theorem exec_inx (s : State) : exec .inx s =
    .next { s with registerX := inc8 s.registerX, status := updateZN s.status (inc8 s.registerX) } := rfl

/-- The TAX handler's whole next state (R101). -/
theorem exec_tax (s : State) : exec .tax s =
    .next { s with registerX := s.accumulator, status := updateZN s.status s.accumulator } := rfl

/-- Settles O29: INC8 as a number, the handler by `exec_inx`, and the step as that handler past the opcode. -/
theorem inxIncrementsX : Obligations.InxIncrementsX :=
  ⟨inc8_toNat, rfl, fun s => ⟨exec_inx s, fun hs hop =>
    (step_of_form_implied (i := .inx) rfl hs hop).trans (exec_inx (s.advancePc 1))⟩⟩

/-- Settles O30: the handler by `exec_tax`, and the step as that handler past the opcode. -/
theorem taxCopiesAToX : Obligations.TaxCopiesAToX :=
  ⟨fun _ => rfl, rfl, fun s => ⟨exec_tax s, fun hs hop =>
    (step_of_form_implied (i := .tax) rfl hs hop).trans (exec_tax (s.advancePc 1))⟩⟩

end Sys2Proof.Machine

/-! ### Construction (70_reset_and_hazards.md R118) -/

namespace Sys2Proof.Machine

/-- No address is listed in a newly built memory. -/
@[simp] theorem constructWith_mem (extLda : Bool) : (State.constructWith extLda).mem = [] := rfl

/-- A newly built memory reads as the background byte everywhere. -/
theorem readByte_constructWith (extLda : Bool) (a : Word) : readByte (State.constructWith extLda).mem a = 0x00 := by
  rw [constructWith_mem, readByte_nil]

/-- Settles O47: every field but memory is a field of the construction, and memory reads by `readByte_constructWith`. -/
theorem constructionIsAllZero : Obligations.ConstructionIsAllZero := by
  intro extLda
  exact ⟨State.constructWith extLda, rfl, rfl, rfl, rfl, rfl, rfl, readByte_constructWith extLda, rfl, rfl⟩

end Sys2Proof.Machine

/-! ### The decoder and the encoder, both ways (30_encoding.md R48-R57) -/

namespace Sys2Proof.Machine

/-- The decoder on an opcode of the map with its whole operand in the list. -/
theorem decode_of_ok {extLda : Bool} {op : Byte} {rest : List Byte} {i : Instr}
    (h : decodeInstr extLda op (rest.getD 0 0) (rest.getD 1 0) = .ok i)
    (hlen : i.mode.operandLength ≤ rest.length) :
    decode extLda (op :: rest) = .ok (i, rest.drop i.mode.operandLength) := by
  simp only [decode, h, if_neg (Nat.not_lt.2 hlen)]

/-- The decoder on an opcode of the map whose operand the list cuts off. -/
theorem decode_of_short {extLda : Bool} {op : Byte} {rest : List Byte} {i : Instr}
    (h : decodeInstr extLda op (rest.getD 0 0) (rest.getD 1 0) = .ok i)
    (hlen : rest.length < i.mode.operandLength) : decode extLda (op :: rest) = .error .truncated := by
  simp only [decode, h, if_pos hlen]

/-- The decoder on an unmapped opcode, whatever follows (R55). -/
theorem decode_of_unmapped {extLda : Bool} {op : Byte} (h : decodeOpcode extLda op = none) (rest : List Byte) :
    decode extLda (op :: rest) = .error (.rejected .unimplementedOpcode) := by
  simp only [decode, decodeInstr_unmapped h]

/-- What a list that decodes looks like: an opcode and the whole operand of the instruction there. -/
theorem decode_ok {extLda : Bool} {bytes rest : List Byte} {i : Instr} (h : decode extLda bytes = .ok (i, rest)) :
    ∃ op tail, bytes = op :: tail ∧ decodeInstr extLda op (tail.getD 0 0) (tail.getD 1 0) = .ok i ∧
      i.mode.operandLength ≤ tail.length ∧ rest = tail.drop i.mode.operandLength := by
  unfold decode at h
  split at h
  · cases h
  · rename_i op tail
    split at h
    · cases h
    · rename_i j hj
      split at h
      · cases h
      · rename_i hlen
        cases h
        exact ⟨op, tail, rfl, hj, Nat.le_of_not_lt hlen, rfl⟩

/-- Assembly inverts the encoder's operand bytes, whatever bytes follow them (R49, R51). -/
theorem assembleOperand_bytes (f : OperandForm) (rest : List Byte) :
    assembleOperand f.mode ((f.bytes ++ rest).getD 0 0) ((f.bytes ++ rest).getD 1 0) = f := by
  cases f with
  | absolute a => exact congrArg OperandForm.absolute (composeWord_split a)
  | absoluteX a => exact congrArg OperandForm.absoluteX (composeWord_split a)
  | absoluteY a => exact congrArg OperandForm.absoluteY (composeWord_split a)
  | _ => rfl

/-- The encoder's operand bytes of an assembled operand are the bytes it was assembled from. -/
theorem bytes_assembleOperand {m : AddrMode} {tail : List Byte} (h : m.operandLength ≤ tail.length) :
    (assembleOperand m (tail.getD 0 0) (tail.getD 1 0)).bytes = tail.take m.operandLength := by
  match tail, m with
  | _, .implied => rfl
  | _ :: _, .immediate | _ :: _, .zeroPage | _ :: _, .zeroPageX | _ :: _, .zeroPageY | _ :: _, .indirectX
  | _ :: _, .indirectY => rfl
  | lo :: hi :: _, .absolute | lo :: hi :: _, .absoluteX | lo :: hi :: _, .absoluteY =>
    simp [assembleOperand, OperandForm.bytes, AddrMode.operandLength]

/-- Settles O9: the opcode finds the instruction's own row, and assembly gives its operand back. -/
theorem decodeInvertsEncode : Obligations.DecodeInvertsEncode := by
  intro extLda i rest hw
  have hi := decodeInstr_opcode hw (assembleOperand_bytes i.form rest)
  have hlen : i.form.bytes.length = i.mode.operandLength := form_bytes_length i.form
  calc decode extLda (encode i ++ rest)
      = .ok (i, (i.form.bytes ++ rest).drop i.mode.operandLength) := decode_of_ok hi (by simp [hlen])
    _ = .ok (i, rest) := by rw [List.drop_left' hlen]

/-- No two rows of the extended map have the same instruction and mode (R53, R54). -/
theorem opcodeMap_row_unique :
    ∀ e ∈ opcodeMap true, ∀ e' ∈ opcodeMap true, e.name = e'.name → e.mode = e'.mode → e = e' := by decide

/-- Every row of the base map is a row of the extended one (R54). -/
theorem mem_opcodeMap_true {extLda : Bool} {e : OpcodeEntry} (h : e ∈ opcodeMap extLda) : e ∈ opcodeMap true := by
  cases extLda with
  | false => exact List.mem_append_left extMap h
  | true => exact h

/-- An instruction is well-formed exactly if its opcode is mapped. -/
theorem isSome_decodeOpcode_opcode (extLda : Bool) (i : Instr) :
    (decodeOpcode extLda i.opcode).isSome = i.wf extLda := by
  cases extLda <;> cases i <;> rfl

/-- An instruction with the name and the mode of an opcode's row has that opcode. -/
theorem opcode_of_row {extLda : Bool} {op : Byte} {e : OpcodeEntry} {i : Instr}
    (he : decodeOpcode extLda op = some e) (hn : i.name = e.name) (hm : i.mode = e.mode) : i.opcode = op := by
  obtain ⟨hmem, rfl⟩ := decodeOpcode_mem he
  have hi := (decodeOpcode_mem (decodeOpcode_opcode (extLda := true) (i := i) rfl)).1
  exact congrArg OpcodeEntry.opcode (opcodeMap_row_unique _ hi e (mem_opcodeMap_true hmem) hn hm)

/-- A decoded instruction has the opcode it was decoded from. -/
theorem decodeInstr_opcode_eq {extLda : Bool} {op b1 b2 : Byte} {i : Instr}
    (h : decodeInstr extLda op b1 b2 = .ok i) : i.opcode = op := by
  obtain ⟨e, he, hn, -⟩ := decodeInstr_ok h
  exact opcode_of_row he hn (decodeInstr_mode he h)

/-- A decoded instruction is in the map it was decoded with. -/
theorem decodeInstr_wf {extLda : Bool} {op b1 b2 : Byte} {i : Instr}
    (h : decodeInstr extLda op b1 b2 = .ok i) : i.wf extLda = true := by
  obtain ⟨e, he, -⟩ := decodeInstr_ok h
  rw [← isSome_decodeOpcode_opcode, decodeInstr_opcode_eq h, he]
  rfl

/-- A decoded instruction's operand bytes are those the decoder took. -/
theorem decodeInstr_bytes {extLda : Bool} {op : Byte} {tail : List Byte} {i : Instr}
    (h : decodeInstr extLda op (tail.getD 0 0) (tail.getD 1 0) = .ok i) (hlen : i.mode.operandLength ≤ tail.length) :
    i.form.bytes = tail.take i.mode.operandLength := by
  obtain ⟨e, he, -, hf⟩ := decodeInstr_ok h
  rw [← decodeInstr_mode he h] at hf
  rw [hf, bytes_assembleOperand hlen]

/-- Settles O10: the opcode by its row, the operand bytes by assembly, and the rest is what the decoder dropped. -/
theorem encodeInvertsDecode : Obligations.EncodeInvertsDecode := by
  intro extLda bytes rest i h
  obtain ⟨op, tail, rfl, hi, hlen, rfl⟩ := decode_ok h
  refine ⟨decodeInstr_wf hi, ?_⟩
  rw [encode, decodeInstr_opcode_eq hi, decodeInstr_bytes hi hlen, List.cons_append, List.take_append_drop]

/-- Settles O11: a row of the map fixes the instruction's mode and so its length, and an unmapped opcode is rejected. -/
theorem opcodeAloneFixesTheInstruction : Obligations.OpcodeAloneFixesTheInstruction := by
  intro extLda op rest
  refine ⟨fun e he => ?_, fun he => decode_of_unmapped he rest⟩
  obtain ⟨i, hi⟩ := decodeInstr_of_entry he (rest.getD 0 0) (rest.getD 1 0)
  obtain ⟨e', he', hn, -⟩ := decodeInstr_ok hi
  obtain rfl := Option.some.inj (he.symm.trans he')
  have hm := decodeInstr_mode he hi
  rw [← hm]
  exact ⟨fun hlen => ⟨i, decode_of_ok hi hlen, hn, rfl⟩, fun hlen => decode_of_short hi hlen⟩

/-- Settles O8: eight words by the round trip, and two by their opcode, which is in neither map they are decoded with. -/
theorem writtenOutWordsDecode : Obligations.WrittenOutWordsDecode :=
  ⟨decodeInvertsEncode false .brk [] rfl,
    decodeInvertsEncode false (.ldaImm 0x05) [] rfl,
    decodeInvertsEncode false .tax [] rfl,
    decodeInvertsEncode false .inx [] rfl,
    decodeInvertsEncode true (.ldaZpX 0x80) [] rfl,
    decodeInvertsEncode true (.ldaIndX 0xFE) [] rfl,
    decodeInvertsEncode true (.ldaAbs 0x1234) [] rfl,
    decodeInvertsEncode true (.ldaAbsY 0x2000) [] rfl,
    decode_of_unmapped rfl _,
    decode_of_unmapped rfl _⟩

/-- The extended lookup tries the base rows first and then the seven of `extMap` (R54). -/
theorem decodeOpcode_true (op : Byte) :
    decodeOpcode true op = (decodeOpcode false op).or (extMap.find? fun e => e.opcode == op) :=
  List.find?_append

/-- Settles O7: each added opcode finds its row, and any other byte finds no row of `extMap`. -/
theorem extendedOpcodeMapAddsSevenRows : Obligations.ExtendedOpcodeMapAddsSevenRows := by
  refine ⟨fun op => ?_, by decide, by decide⟩
  split_ifs with h1 h2 h3 h4 h5 h6 h7
  case neg =>
    have hext : extMap.find? (fun e => e.opcode == op) = none := by
      simp only [extMap, find?_opcode_cons, h1, h2, h3, h4, h5, h6, h7, if_false, List.find?_nil]
    rw [decodeOpcode_true, hext, Option.or_none]
  all_goals subst op; rfl

end Sys2Proof.Machine

/-! ### What a step can do: the sequencer, the record and the frame (40_fetch_execute.md R60-R68) -/

namespace Sys2Proof.Machine

/-- What a completed handler has done, by its instruction. -/
theorem exec_next_cases {i : Instr} {s t : State} (h : exec i s = .next t) :
    (i = .brk ∧ t = s.setSeq .halted) ∨
    (i = .inx ∧ t = (s.writeReg .X (inc8 s.registerX)).setZN (inc8 s.registerX)) ∨
    (i = .tax ∧ t = (s.writeReg .X s.accumulator).setZN s.accumulator) ∨
    (i.name = .lda ∧ ∃ v, operandValue i.form s = some v ∧
      t = ((s.writeReg .A v).setZN v).advancePc i.mode.operandLength) := by
  obtain ⟨hi, e⟩ | ⟨hi, e⟩ | ⟨hi, e⟩ | ⟨hn, v, hv, e⟩ := exec_cases i s <;>
    obtain rfl := Host.Outcome.next.inj (e.symm.trans h)
  · exact .inl ⟨hi, rfl⟩
  · exact .inr (.inl ⟨hi, rfl⟩)
  · exact .inr (.inr (.inl ⟨hi, rfl⟩))
  · exact .inr (.inr (.inr ⟨hn, v, hv, rfl⟩))

/-- What no handler changes, and what BRK alone does to the sequencer. -/
theorem exec_frame {i : Instr} {s t : State} (h : exec i s = .next t) :
    t.fault = s.fault ∧ t.mem = s.mem ∧ t.extLda = s.extLda ∧ t.registerY = s.registerY ∧
      t.seq = if i = .brk then .halted else s.seq := by
  obtain ⟨rfl, rfl⟩ | ⟨rfl, rfl⟩ | ⟨rfl, rfl⟩ | ⟨hn, v, -, rfl⟩ := exec_next_cases h
  case inr.inr.inr =>
    have hb : i ≠ .brk := by rintro rfl; cases hn
    exact ⟨rfl, rfl, rfl, rfl, (if_neg hb).symm⟩
  all_goals exact ⟨rfl, rfl, rfl, rfl, rfl⟩

/-- Every handler completes. -/
theorem exec_total (i : Instr) (s : State) : ∃ t, exec i s = .next t := by
  rcases exec_cases i s with ⟨-, e⟩ | ⟨-, e⟩ | ⟨-, e⟩ | ⟨-, v, -, e⟩ <;> exact ⟨_, e⟩

/-- Settles O20: every handler completes (`exec_total`), and what it keeps is `exec_frame`. -/
theorem everyInstructionCompletes : Obligations.EveryInstructionCompletes := by
  intro i s
  obtain ⟨t, ht⟩ := exec_total i s
  obtain ⟨hfault, hmem, hext, -, hseq⟩ := exec_frame ht
  exact ⟨t, ht, hfault, hmem, hext, hseq⟩

/-- pc moves past the operand, in every instruction (R63). -/
theorem exec_pc {i : Instr} {s t : State} (h : exec i s = .next t) :
    t.pc = s.pc + BitVec.ofNat 16 i.mode.operandLength := by
  obtain ⟨rfl, rfl⟩ | ⟨rfl, rfl⟩ | ⟨rfl, rfl⟩ | ⟨hn, v, -, rfl⟩ := exec_next_cases h
  case inr.inr.inr => rfl
  all_goals exact (BitVec.add_zero s.pc).symm

/-- The step of an unmapped opcode: the fault, on the fetched state (60_exceptions.md R104). -/
theorem step_of_unmapped {s : State} (hs : s.seq = .running)
    (h : decodeOpcode s.extLda (readByte s.mem s.pc) = none) :
    step s = .next (raiseFault .unimplementedOpcode (readByte s.mem s.pc) s.pc (s.advancePc 1)) := by
  refine step_of_reject hs (decodeInstr_unmapped ?_ _ _)
  rwa [byteAtPc_zero]

/-- The step of a mapped opcode: the handler of an instruction of its row, on the fetched state. -/
theorem step_of_mapped {s : State} {e : OpcodeEntry} (hs : s.seq = .running)
    (h : decodeOpcode s.extLda (readByte s.mem s.pc) = some e) :
    ∃ i, i.opcode = readByte s.mem s.pc ∧ i.name = e.name ∧
      i.form = assembleOperand e.mode (byteAtPc s 1) (byteAtPc s 2) ∧ step s = exec i (s.advancePc 1) := by
  rw [← byteAtPc_zero] at h ⊢
  obtain ⟨i, hi⟩ := decodeInstr_of_entry h (byteAtPc s 1) (byteAtPc s 2)
  obtain ⟨e', he', hn, hf⟩ := decodeInstr_ok hi
  obtain rfl := Option.some.inj (h.symm.trans he')
  exact ⟨i, decodeInstr_opcode_eq hi, hn, hf, step_of_decode hs hi⟩

/-- Everything a completed step can do, by the opcode at pc: fault if it is unmapped, and otherwise run the handler of an
instruction that has this opcode. -/
theorem step_opcode_cases {s t : State} (h : step s = .next t) :
    (decodeOpcode s.extLda (readByte s.mem s.pc) = none ∧
      t = raiseFault .unimplementedOpcode (readByte s.mem s.pc) s.pc (s.advancePc 1)) ∨
    ∃ i e, decodeOpcode s.extLda (readByte s.mem s.pc) = some e ∧ i.opcode = readByte s.mem s.pc ∧
      i.name = e.name ∧ exec i (s.advancePc 1) = .next t := by
  obtain ⟨-, hfault | ⟨i, e, he, hd, hn, -, hx⟩⟩ := step_cases h
  · exact .inl hfault
  · exact .inr ⟨i, e, he, (decodeInstr_opcode_eq hd).trans (byteAtPc_zero s), hn, hx⟩

/-- What no step changes. -/
theorem step_frame {s t : State} (h : step s = .next t) :
    t.mem = s.mem ∧ t.extLda = s.extLda ∧ t.registerY = s.registerY := by
  obtain ⟨-, rfl⟩ | ⟨i, e, -, -, -, hx⟩ := step_opcode_cases h
  · exact ⟨rfl, rfl, rfl⟩
  · obtain ⟨-, hmem, hext, hy, -⟩ := exec_frame hx
    exact ⟨hmem, hext, hy⟩

/-- 0x00 is the opcode of BRK alone (R53, R54). -/
theorem opcode_eq_zero_iff {i : Instr} : i.opcode = 0x00 ↔ i = .brk := by
  cases i <;> simp [Instr.opcode]

/-- Where a completed step leaves the sequencer and the record: `Faulted` with the record of an unmapped opcode, `Halted`
at BRK, and `Running` otherwise, the last two with the record it had. -/
theorem step_seq_cases {s t : State} (h : step s = .next t) :
    (decodeOpcode s.extLda (readByte s.mem s.pc) = none ∧ t.seq = .faulted ∧
      t.fault = some (.unimplementedOpcode (readByte s.mem s.pc) s.pc)) ∨
    (readByte s.mem s.pc = 0x00 ∧ t.seq = .halted ∧ t.fault = s.fault) ∨
    (readByte s.mem s.pc ≠ 0x00 ∧ (∃ e, decodeOpcode s.extLda (readByte s.mem s.pc) = some e) ∧
      t.seq = .running ∧ t.fault = s.fault) := by
  obtain ⟨hnone, rfl⟩ | ⟨i, e, he, hop, -, hx⟩ := step_opcode_cases h
  · exact .inl ⟨hnone, rfl, rfl⟩
  · obtain ⟨hfault, -, -, -, hseq⟩ := exec_frame hx
    right
    rw [← hop] at he ⊢
    by_cases hb : i = .brk
    · subst hb
      exact .inl ⟨rfl, hseq, hfault⟩
    · have hs : t.seq = s.seq := hseq.trans (if_neg hb)
      exact .inr ⟨mt opcode_eq_zero_iff.1 hb, ⟨e, he⟩, hs.trans (step_running h), hfault⟩

/-- A completed step goes on or has ended its run. -/
theorem step_running_or_ended {s t : State} (h : step s = .next t) : t.seq = .running ∨ Ended t := by
  obtain ⟨-, hq, -⟩ | ⟨-, hq, -⟩ | ⟨-, -, hq, -⟩ := step_seq_cases h
  · exact .inr (.inr hq)
  · exact .inr (.inl hq)
  · exact .inl hq

/-- A step keeps the agreement of record and sequencer (10_state.md R28). -/
theorem step_keeps_record {s t : State} (hrec : s.fault.isSome = true ↔ s.seq = .faulted)
    (h : step s = .next t) : t.fault.isSome = true ↔ t.seq = .faulted := by
  rw [step_running h] at hrec
  obtain ⟨-, hq, hf⟩ | ⟨-, hq, hf⟩ | ⟨-, -, hq, hf⟩ := step_seq_cases h
  · simp [hq, hf]
  · simpa [hq, hf] using hrec
  · simpa [hq, hf] using hrec

/-- A step keeps `status` among its three reachable values (10_state.md R25). -/
theorem step_keeps_flags {s t : State} (hflags : s.status = 0x00 ∨ s.status = 0x02 ∨ s.status = 0x80)
    (h : step s = .next t) : t.status = 0x00 ∨ t.status = 0x02 ∨ t.status = 0x80 := by
  obtain hst | ⟨-, r, hst⟩ := step_status_cases h
  · rwa [hst]
  · rw [hst]
    exact updateZN_reachable r hflags

/-- Settles O43: memory and Y by `step_frame`, the record and the flags each by what a step can do to them. -/
theorem stepKeepsTheInvariant : Obligations.StepKeepsTheInvariant := by
  intro s t ⟨hmem, hrec, hy, hflags⟩ h
  obtain ⟨hm, -, hY⟩ := step_frame h
  exact ⟨hm ▸ hmem, step_keeps_record hrec h, hY.trans hy, step_keeps_flags hflags h⟩

/-- Settles O40: memory is in every step's frame, and so is each of its bytes. -/
theorem noStepWritesMemory : Obligations.NoStepWritesMemory := by
  intro s t h
  obtain ⟨hm, -⟩ := step_frame h
  exact ⟨hm, fun a => by rw [hm]⟩

/-- Settles O13: the three bytes the decoder reads are the ones `decodeAtPc` reads. -/
theorem stepRunsTheDecodedInstruction : Obligations.StepRunsTheDecodedInstruction := by
  intro s i rest hs h
  obtain ⟨op, tail, htail, hi, -⟩ := decode_ok h
  obtain ⟨rfl, rfl⟩ := List.cons.inj htail
  have hd : decodeAtPc s = .ok i := by
    rw [decodeAtPc, byteAtPc_zero]
    exact hi
  exact ⟨decodeInstr_wf hi, step_of_decode hs hd⟩

/-- No mode has more than two operand bytes (30_encoding.md R50). -/
theorem operandLength_le_two (m : AddrMode) : m.operandLength ≤ 2 := by
  cases m <;> decide

/-- No instruction is longer than three bytes (30_encoding.md R49). -/
theorem encode_length_le_three (i : Instr) : (encode i).length ≤ 3 := by
  rw [encode, List.length_cons, form_bytes_length]
  exact Nat.succ_le_succ (operandLength_le_two _)

/-- Memory that holds an instruction's bytes from pc on has them as the first of the three bytes at pc. -/
theorem encode_initial_at_pc {s : State} {i : Instr}
    (h : ∀ k : Nat, k < (encode i).length → some (readByte s.mem (s.pc + BitVec.ofNat 16 k)) = (encode i)[k]?) :
    encode i <+: [readByte s.mem s.pc, readByte s.mem (s.pc + 1), readByte s.mem (s.pc + 2)] := by
  rw [List.prefix_iff_getElem?]
  intro k hk
  rw [← List.getElem?_eq_getElem hk, ← h k hk]
  have hlen := encode_length_le_three i
  obtain rfl | rfl | rfl : k = 0 ∨ k = 1 ∨ k = 2 := by omega
  · exact congrArg (fun a => some (readByte s.mem a)) (BitVec.add_zero s.pc).symm
  · rfl
  · rfl

/-- Settles O14: the bytes at pc are the instruction's and some others, so they decode to it, and O13 says what the step
does. -/
theorem stepRunsTheEncodedInstruction : Obligations.StepRunsTheEncodedInstruction := by
  intro s i hs hw hbytes
  obtain ⟨rest, hrest⟩ := encode_initial_at_pc hbytes
  have hd := decodeInvertsEncode s.extLda i rest hw
  rw [hrest] at hd
  exact (stepRunsTheDecodedInstruction s i rest hs hd).2

/-- Settles O15: the fetch moves pc by one (`advancePc`) and the handler past the operand (`exec_pc`). -/
theorem stepMovesPcPastTheInstruction : Obligations.StepMovesPcPastTheInstruction := by
  intro s e hs he
  obtain ⟨i, -, -, hf, hstep⟩ := step_of_mapped hs he
  obtain ⟨t, ht⟩ := exec_total i (s.advancePc 1)
  have hm : i.mode = e.mode := by rw [Instr.mode, hf, mode_assembleOperand]
  refine ⟨t, hstep.trans ht, ?_⟩
  rw [exec_pc ht, hm, BitVec.toNat_add, advancePc_pc_toNat, BitVec.toNat_ofNat, ← Nat.add_mod]

/-- Settles O16: the fault is raised on the fetched state, and a `Faulted` machine answers its record. -/
theorem unmappedOpcodeFaults : Obligations.UnmappedOpcodeFaults := by
  intro s hs hnone
  have hstep := step_of_unmapped hs hnone
  refine ⟨hstep, fun t ht => ?_⟩
  obtain rfl := Host.Outcome.next.inj (hstep.symm.trans ht)
  exact step_of_faulted rfl rfl

/-- Settles O17: of the three ends of a step, only that of an unmapped opcode is `Faulted`. -/
theorem onlyUnmappedOpcodesFault : Obligations.OnlyUnmappedOpcodesFault := by
  intro s t h hq
  obtain ⟨hnone, -, hf⟩ | ⟨-, hq', -⟩ | ⟨-, -, hq', -⟩ := step_seq_cases h
  · exact ⟨hnone, hf⟩
  · cases hq.symm.trans hq'
  · cases hq.symm.trans hq'

/-- Settles O18: a `Running` step is total, and each other state has its own answer. -/
theorem stepCompletesExactlyWhenRunning : Obligations.StepCompletesExactlyWhenRunning := fun _ =>
  ⟨⟨fun ⟨_, h⟩ => step_running h, step_total⟩, step_of_stopped, fun _ => step_of_faulted⟩

/-- BRK's opcode is mapped under both values of EXT_LDA (R53). -/
theorem decodeOpcode_brk (extLda : Bool) : decodeOpcode extLda 0x00 = some ⟨0x00, .brk, .implied⟩ :=
  decodeOpcode_opcode (wf_of_form_implied (i := .brk) rfl extLda)

/-- Settles O19: the three ends of a step exclude each other, and so do the three kinds of opcode. -/
theorem stepMovesTheSequencer : Obligations.StepMovesTheSequencer := by
  intro s t h
  obtain ⟨hnone, hq, -⟩ | ⟨hop, hq, -⟩ | ⟨hop, ⟨e, he⟩, hq, -⟩ := step_seq_cases h <;> rw [hq]
  · rw [hnone]
    have hop : readByte s.mem s.pc ≠ 0x00 := fun h0 => by rw [h0, decodeOpcode_brk] at hnone; cases hnone
    exact ⟨iff_of_false nofun hop, iff_of_true rfl rfl, iff_of_false nofun nofun⟩
  · rw [hop, decodeOpcode_brk]
    exact ⟨iff_of_true rfl rfl, iff_of_false nofun nofun, iff_of_false nofun fun h => h.1 rfl⟩
  · rw [he]
    exact ⟨iff_of_false nofun hop, iff_of_false nofun nofun, iff_of_true rfl ⟨hop, e, rfl⟩⟩

end Sys2Proof.Machine

/-! ### Memory: its canonical form, words and rows of bytes (20_memory.md) -/

namespace Sys2Proof.Machine

/-- Settles O2: each writer by its own lemma. -/
theorem memoryWritesKeepCanonicalForm : Obligations.MemoryWritesKeepCanonicalForm :=
  fun _ a v b bytes hm => ⟨wf_writeByte hm a b, wf_writeWord hm a v, wf_writeBytes hm a bytes, wf_loadMemory hm bytes⟩

/-- Where a canonical memory reads as one with nothing listed below `b`, its own first cell is not below `b` either. -/
theorem head_address_ge {lo a b : Nat} {v : Byte} {m n : Memory} (hm : Memory.wfFrom lo ((a, v) :: m) = true)
    (hn : Memory.wfFrom b n = true)
    (h : ∀ c < 65536, Memory.read ((a, v) :: m) c = Memory.read n c) : b ≤ a := by
  obtain ⟨-, ha, hv, -⟩ := (wfFrom_cons ..).1 hm
  by_contra hlt
  have hread := h a ha
  rw [read_below hn (Nat.lt_of_not_le hlt), Memory.read, if_pos rfl] at hread
  exact hv hread

/-- Below 65536 a canonical memory is fixed by what it reads. -/
theorem eq_of_read_eq {lo : Nat} {m n : Memory} (hm : Memory.wfFrom lo m = true) (hn : Memory.wfFrom lo n = true)
    (h : ∀ c < 65536, Memory.read m c = Memory.read n c) : m = n := by
  induction m generalizing lo n with
  | nil =>
    cases n with
    | nil => rfl
    | cons d n =>
      have habove := head_address_ge (b := 65536) hn rfl fun c hc => (h c hc).symm
      have hbelow := ((wfFrom_cons ..).1 hn).2.1
      omega
  | cons d m ih =>
    obtain ⟨a, v⟩ := d
    obtain ⟨hlo, ha, hv, hm'⟩ := (wfFrom_cons ..).1 hm
    cases n with
    | nil =>
      have habove := head_address_ge (b := 65536) hm rfl h
      omega
    | cons d' n =>
      obtain ⟨b, w⟩ := d'
      obtain ⟨hlo', hb, hw, hn'⟩ := (wfFrom_cons ..).1 hn
      have hab : a = b := Nat.le_antisymm
        (head_address_ge hn ((wfFrom_cons ..).2 ⟨le_rfl, ha, hv, hm'⟩) fun c hc => (h c hc).symm)
        (head_address_ge hm ((wfFrom_cons ..).2 ⟨le_rfl, hb, hw, hn'⟩) h)
      subst hab
      have hvw : v = w := by simpa [Memory.read] using h a ha
      have htail : m = n := ih hm' hn' fun c hc => by
        by_cases hca : c ≤ a
        · rw [read_below hm' (Nat.lt_succ_of_le hca), read_below hn' (Nat.lt_succ_of_le hca)]
        · have hne : a ≠ c := by omega
          simpa only [Memory.read, if_neg hne] using h c hc
      rw [hvw, htail]

/-- Settles O3: the addresses of the machine are the naturals below 65536. -/
theorem memoriesThatReadTheSameAreEqual : Obligations.MemoriesThatReadTheSameAreEqual := by
  intro m n hm hn h
  refine eq_of_read_eq hm hn fun c hc => ?_
  have hread := h (BitVec.ofNat 16 c)
  rwa [readByte, readByte, BitVec.toNat_ofNat, Nat.mod_eq_of_lt hc] at hread

/-- A word as a number: its two bytes, little-endian (R34, R36). -/
theorem readWord_toNat (m : Memory) (a : Word) :
    (readWord m a).toNat = 256 * (readByte m (a + 1)).toNat + (readByte m a).toNat :=
  composeWord_toNat _ _

/-- Settles O4: a word is its two bytes, and 0xFFFF + 1 is 0x0000. -/
theorem readWordIsLittleEndianAndWraps : Obligations.ReadWordIsLittleEndianAndWraps :=
  fun m a => ⟨readWord_toNat m a, readWord_toNat m 0xFFFF⟩

/-- What a byte reads as after `writeWord` to a canonical memory (R35). -/
theorem readByte_writeWord {m : Memory} (hm : m.wf = true) (a v b : Word) :
    readByte (writeWord m a v) b =
      if b = a + 1 then highByte v else if b = a then lowByte v else readByte m b := by
  rw [writeWord, readByte_writeByte (wf_writeByte hm _ _), readByte_writeByte hm]

theorem lowByte_toNat (v : Word) : (lowByte v).toNat = v.toNat % 256 := by
  simp [lowByte, BitVec.extractLsb'_toNat]

theorem highByte_toNat (v : Word) : (highByte v).toNat = v.toNat / 256 := by
  have hv := v.isLt
  simp only [highByte, BitVec.extractLsb'_toNat, Nat.shiftRight_eq_div_pow]
  omega

/-- Settles O5: each byte by `readByte_writeWord`, since the word's two addresses differ, and the word from its bytes. -/
theorem writeWordStoresBothBytes : Obligations.WriteWordStoresBothBytes := by
  intro m a v hm
  have hne : a ≠ a + 1 := by bv_omega
  have hlow : readByte (writeWord m a v) a = lowByte v := by
    rw [readByte_writeWord hm, if_neg hne, if_pos rfl]
  have hhigh : readByte (writeWord m a v) (a + 1) = highByte v := by
    rw [readByte_writeWord hm, if_pos rfl]
  refine ⟨hlow ▸ lowByte_toNat v, hhigh ▸ highByte_toNat v, fun b h1 h2 => ?_, ?_⟩
  · rw [readByte_writeWord hm, if_neg h2, if_neg h1]
  · rw [readWord, hlow, hhigh, composeWord_split]

/-- What a byte reads as after `writeBytes` to a canonical memory: the byte of the row at its distance from the first
address, modulo 65536, if the row is that long. -/
theorem readByte_writeBytes {m : Memory} (hm : m.wf = true) (a b : Word) (bytes : List Byte)
    (hlen : bytes.length ≤ 65536) :
    readByte (writeBytes m a bytes) b = (bytes[(b - a).toNat]?).getD (readByte m b) := by
  induction bytes generalizing m a with
  | nil => rfl
  | cons v rest ih =>
    rw [List.length_cons] at hlen
    rw [writeBytes_cons, ih (wf_writeByte hm a v) (a + 1) (by omega), readByte_writeByte hm]
    by_cases hb : b = a
    · have hfar : rest.length ≤ (b - (a + 1)).toNat := by bv_omega
      have hhere : (b - a).toNat = 0 := by bv_omega
      rw [List.getElem?_eq_none hfar, hhere, if_pos hb]
      rfl
    · have hnext : (b - a).toNat = (b - (a + 1)).toNat + 1 := by bv_omega
      rw [hnext, List.getElem?_cons_succ, if_neg hb]

/-- What a byte reads as after `load`'s writes to a canonical memory (70_reset_and_hazards.md R120): the vector, and
elsewhere the program where it reaches. -/
theorem readByte_loadMemory {m : Memory} (hm : m.wf = true) {program : List Byte} (hlen : program.length ≤ 32768)
    (b : Word) :
    readByte (loadMemory program m) b =
      if b = 0xFFFD then 0x80 else if b = 0xFFFC then 0x00
      else (program[(b - 0x8000).toNat]?).getD (readByte m b) := by
  rw [loadMemory, readByte_writeWord (wf_writeBytes hm _ _), readByte_writeBytes hm _ _ _ (by omega)]
  rfl

/-- Outside the vector, a byte the program does not reach is kept by `load` (D18). -/
theorem readByte_loadMemory_outside {m : Memory} (hm : m.wf = true) {program : List Byte}
    (hlen : program.length ≤ 32768) {b : Word} (hlo : b ≠ 0xFFFC) (hhi : b ≠ 0xFFFD)
    (hout : b.toNat < 0x8000 ∨ 0x8000 + program.length ≤ b.toNat) :
    readByte (loadMemory program m) b = readByte m b := by
  have hfar : program.length ≤ (b - 0x8000).toNat := by bv_omega
  rw [readByte_loadMemory hm hlen, if_neg hhi, if_neg hlo, List.getElem?_eq_none hfar]
  rfl

end Sys2Proof.Machine

/-! ### The resolver in the word and pointer modes (41_addressing_modes.md R78-R83) -/

namespace Sys2Proof.Machine

/-- An index is added to an address modulo 65536 (R79, R80, R82). -/
theorem add_zext16_toNat (a : Word) (index : Byte) : (a + zext16 index).toNat = (a.toNat + index.toNat) % 65536 := by
  rw [BitVec.toNat_add, zext16_toNat]

section ResolveWord
variable (s : State)
@[simp] theorem resolve_absolute : resolve .absolute s = some (readWord s.mem s.pc) := rfl
@[simp] theorem resolve_absoluteX : resolve .absoluteX s = some (readWord s.mem s.pc + zext16 s.registerX) := rfl
@[simp] theorem resolve_absoluteY : resolve .absoluteY s = some (readWord s.mem s.pc + zext16 s.registerY) := rfl
@[simp] theorem resolve_indirectX :
    resolve .indirectX s = some (dereference s.mem (readByte s.mem s.pc + s.registerX)) := rfl
@[simp] theorem resolve_indirectY :
    resolve .indirectY s = some (dereference s.mem (readByte s.mem s.pc) + zext16 s.registerY) := rfl
@[simp] theorem resolve_implied : resolve .implied s = none := rfl
end ResolveWord

/-- Settles O22: the word at pc is `w`, and an index is added to it modulo 65536. -/
theorem resolverOfAbsoluteModes : Obligations.ResolverOfAbsoluteModes := by
  rintro s w rfl
  refine ⟨⟨_, resolve_absolute s, readWord_toNat _ _⟩, ⟨_, resolve_absoluteX s, ?_⟩, ⟨_, resolve_absoluteY s, ?_⟩⟩
  · rw [add_zext16_toNat, readWord_toNat]
  · rw [add_zext16_toNat, readWord_toNat]

/-- A pointer's address and the next one inside the zero page, from the pointer as a number (D4). -/
theorem dereference_toNat (m : Memory) {ptr : Byte} {p : Nat} (h : ptr.toNat = p) :
    (dereference m ptr).toNat = 256 * (readByte m (BitVec.ofNat 16 ((p + 1) % 256))).toNat +
      (readByte m (BitVec.ofNat 16 p)).toNat := by
  have hlow : zext16 ptr = BitVec.ofNat 16 p := by
    rw [← h, ← zext16_toNat ptr, BitVec.ofNat_toNat, BitVec.setWidth_eq]
  have hhigh : zext16 (ptr + 1) = BitVec.ofNat 16 ((p + 1) % 256) := by
    have hnext : (zext16 (ptr + 1)).toNat = (p + 1) % 256 := by rw [← h]; exact zext16_add_toNat ptr 1
    rw [← hnext, BitVec.ofNat_toNat, BitVec.setWidth_eq]
  rw [dereference, composeWord_toNat, hlow, hhigh]

/-- Settles O23: each pointer as a number, its word by `dereference_toNat`, and Y added modulo 65536. -/
theorem resolverOfIndirectModes : Obligations.ResolverOfIndirectModes := by
  rintro s px py hx hy
  have hpx : (readByte s.mem s.pc + s.registerX).toNat = px := by rw [hx, BitVec.toNat_add]
  refine ⟨⟨_, resolve_indirectX s, dereference_toNat s.mem hpx⟩, ⟨_, resolve_indirectY s, ?_⟩⟩
  rw [add_zext16_toNat, dereference_toNat s.mem hy.symm]

/-- Settles O24: Implied names no operand, and one byte before the fetched pc is the opcode. -/
theorem impliedModeHasNoAddress : Obligations.ImpliedModeHasNoAddress := by
  refine fun s => ⟨resolve_implied s, ?_⟩
  rw [execLda_of_none rfl]
  have hpc : s.pc + 1 - 1 = s.pc := by bv_omega
  simp only [hpc]
  rfl

end Sys2Proof.Machine

/-! ### The flags after an update (42_alu_and_flags.md R91, R92) -/

namespace Sys2Proof.Machine

@[simp] theorem zeroFlag_updateZN (status r : Byte) : zeroFlag (updateZN status r) = decide (r = 0x00) :=
  updateZN_getLsbD_zero status r

@[simp] theorem negativeFlag_updateZN (status r : Byte) : negativeFlag (updateZN status r) = r.getLsbD 7 :=
  updateZN_getLsbD_negative status r

/-- A byte with bit 7 set is not 0x00. -/
theorem ne_zero_of_getLsbD_seven {r : Byte} (h : r.getLsbD 7 = true) : r ≠ 0x00 := by
  rintro rfl
  cases h

/-- Settles O37: both flags come from the result, and a result with bit 7 set is not 0. -/
theorem zeroAndNegativeExcludeEachOther : Obligations.ZeroAndNegativeExcludeEachOther := by
  intro st st' r
  simp only [zeroFlag_updateZN, negativeFlag_updateZN, decide_eq_true_eq, and_true]
  exact fun ⟨hz, hn⟩ => ne_zero_of_getLsbD_seven hn hz

end Sys2Proof.Machine

/-! ### LDA (44_load_lda.md R98) -/

namespace Sys2Proof.Machine

/-- The LDA handlers' whole next state, from the value of the instruction's operand (R98). -/
theorem exec_lda_next {i : Instr} {s : State} {v : Byte} (hn : i.name = .lda) (hv : operandValue i.form s = some v) :
    exec i s = .next { s with
      accumulator := v, status := updateZN s.status v, pc := s.pc + BitVec.ofNat 16 i.mode.operandLength } :=
  (exec_lda hn s).trans (execLda_of_value hv)

/-- What an LDA handler that completes has done. -/
theorem exec_lda_eq {i : Instr} {s t : State} (hn : i.name = .lda) (h : exec i s = .next t) :
    ∃ v, operandValue i.form s = some v ∧ t = { s with
      accumulator := v, status := updateZN s.status v, pc := s.pc + BitVec.ofNat 16 i.mode.operandLength } := by
  obtain ⟨v, hv⟩ := operandValue_of_mode (form_mode_of_lda hn) s
  exact ⟨v, hv, Host.Outcome.next.inj (h.symm.trans (exec_lda_next hn hv))⟩

/-- Settles O26: each form's value, and the handler by `exec_lda_next`. -/
theorem ldaFormsComplete : Obligations.LdaFormsComplete := by
  intro s b a
  refine ⟨exec_lda_next rfl rfl,
    fun _ hv => exec_lda_next (i := .ldaZp b) rfl (congrArg some hv.symm),
    fun _ hv => exec_lda_next (i := .ldaZpX b) rfl (congrArg some hv.symm),
    fun _ hv => exec_lda_next (i := .ldaAbs a) rfl (congrArg some hv.symm),
    fun _ hv => exec_lda_next (i := .ldaAbsX a) rfl (congrArg some hv.symm),
    fun _ hv => exec_lda_next (i := .ldaAbsY a) rfl (congrArg some hv.symm), ?_, ?_⟩
  · rintro _ _ _ rfl rfl rfl
    exact exec_lda_next (i := .ldaIndX b) rfl rfl
  · rintro _ _ _ rfl rfl rfl
    exact exec_lda_next (i := .ldaIndY b) rfl rfl

/-- Settles O27: the handler's `status` is the flag unit's, whose flags come from the value loaded. -/
theorem ldaSetsTheFlagsFromTheLoadedByte : Obligations.LdaSetsTheFlagsFromTheLoadedByte := by
  intro i s hn
  obtain ⟨v, hv⟩ := operandValue_of_mode (form_mode_of_lda hn) s
  refine ⟨v, _, hv, exec_lda_next hn hv, rfl, ?_, ?_, ?_⟩
  · rintro rfl
    exact ⟨zeroFlag_updateZN _ _, negativeFlag_updateZN _ _⟩
  · intro hz hneg
    simp only [zeroFlag_updateZN, negativeFlag_updateZN, decide_eq_false hz, hneg, and_self]
  · intro hneg
    simp only [zeroFlag_updateZN, negativeFlag_updateZN, decide_eq_false (ne_zero_of_getLsbD_seven hneg), hneg,
      and_self]

/-- Settles O28: the handler's whole next state, and the bits of `status` the flag unit keeps. -/
theorem ldaFrame : Obligations.LdaFrame := by
  intro i s t hn h
  obtain ⟨v, -, rfl⟩ := exec_lda_eq hn h
  exact ⟨rfl, rfl, rfl, rfl, rfl, rfl, fun _ => rfl, fun _ h1 h7 => updateZN_getLsbD_reserved _ v h1 h7⟩

/-- The operand the decoder assembles is the one the fetched state holds at pc (entry 15). -/
theorem assembleOperand_byteAtPc (m : AddrMode) (s : State) :
    assembleOperand m (byteAtPc s 1) (byteAtPc s 2) = operandAt m (s.advancePc 1) := by
  have hnext : s.pc + BitVec.ofNat 16 2 = s.pc + BitVec.ofNat 16 1 + 1 := by bv_omega
  have hword : composeWord (byteAtPc s 2) (byteAtPc s 1) = readWord s.mem (s.pc + BitVec.ofNat 16 1) := by
    rw [readWord, byteAtPc, byteAtPc, hnext]
  cases m with
  | absolute => exact congrArg OperandForm.absolute hword
  | absoluteX => exact congrArg OperandForm.absoluteX hword
  | absoluteY => exact congrArg OperandForm.absoluteY hword
  | _ => rfl

/-- The value of the operand at pc is the byte at the address its mode resolves to (R98). -/
theorem operandValue_operandAt (m : AddrMode) (s : State) :
    operandValue (operandAt m s) s = (resolve m s).map (readByte s.mem) := by
  cases m <;> rfl

/-- Settles O25: the decoded operand is the one at pc, whose value is the byte at the resolved address. -/
theorem ldaStepLoadsTheResolvedByte : Obligations.LdaStepLoadsTheResolvedByte := by
  intro s op m hs he
  obtain ⟨i, -, hn, hf, hstep⟩ := step_of_mapped hs he
  have hm : i.mode = m := by rw [Instr.mode, hf, mode_assembleOperand]
  obtain ⟨v, hv⟩ := operandValue_of_mode (form_mode_of_lda hn) (s.advancePc 1)
  have hload := exec_lda_next hn hv
  rw [hf, assembleOperand_byteAtPc, operandValue_operandAt] at hv
  obtain ⟨ea, hea, rfl⟩ := Option.map_eq_some_iff.1 hv
  rw [hm] at hload
  exact ⟨ea, hea, hstep.trans hload⟩

end Sys2Proof.Machine

/-! ### INX, TAX and BRK (45_register_inx_tax.md, 43_control_brk.md) -/

namespace Sys2Proof.Machine

/-- Settles O31: each handler's whole next state, and the bits of `status` the flag unit keeps. -/
theorem inxTaxFrame : Obligations.InxTaxFrame := by
  rintro i s t (rfl | rfl) h
  · obtain rfl := Host.Outcome.next.inj ((exec_inx s).symm.trans h)
    exact ⟨rfl, rfl, rfl, rfl, rfl, rfl, rfl, fun _ => rfl, fun _ h1 h7 => updateZN_getLsbD_reserved _ _ h1 h7⟩
  · obtain rfl := Host.Outcome.next.inj ((exec_tax s).symm.trans h)
    exact ⟨rfl, rfl, rfl, rfl, rfl, rfl, rfl, fun _ => rfl, fun _ h1 h7 => updateZN_getLsbD_reserved _ _ h1 h7⟩

/-- The BRK handler's whole next state (R96). -/
theorem exec_brk (s : State) : exec .brk s = .next { s with seq := .halted } := rfl

/-- The step of a BRK, with pc past it (R96; D5). -/
theorem step_brk {s : State} (hs : s.seq = .running) (hop : readByte s.mem s.pc = 0x00) :
    step s = .next { s with pc := s.pc + 1, seq := .halted } :=
  (step_of_form_implied (i := .brk) rfl hs hop).trans (exec_brk (s.advancePc 1))

/-- Settles O32: the handler by `exec_brk`, and the step by `step_brk`. -/
theorem brkHaltsAndChangesNothingElse : Obligations.BrkHaltsAndChangesNothingElse :=
  ⟨rfl, fun s => ⟨exec_brk s, step_brk⟩⟩

/-- Settles O33: the handler's whole next state differs in the sequencer alone. -/
theorem brkFrame : Obligations.BrkFrame := by
  intro s t h
  obtain rfl := Host.Outcome.next.inj ((exec_brk s).symm.trans h)
  exact ⟨rfl, rfl, rfl, rfl, rfl, rfl, rfl, rfl, fun _ => rfl⟩

/-- Settles O34: BRK only moved pc and the sequencer, and the start of a run sets the sequencer back. -/
theorem runAfterBrkResumesAfterIt : Obligations.RunAfterBrkResumesAfterIt := by
  intro s hs hop
  refine ⟨_, step_brk hs hop, rfl, ?_⟩
  rw [beginRun_admitted (.inr rfl), State.setSeq, hs]

end Sys2Proof.Machine

/-! ### What a step does not read and which registers it writes (10_state.md R16-R18, R24; 00_scope.md R4) -/

namespace Sys2Proof.Machine

/-- An operand's value is found without reading `status` or the parameter (41_addressing_modes.md R84). -/
theorem operandValue_withStatusExtLda (f : OperandForm) (s : State) (st : Byte) (b : Bool) :
    operandValue f { s with status := st, extLda := b } = operandValue f s := by
  cases f <;> rfl

/-- No handler reads the parameter, nor `status` but to update it (R24; entry 1). -/
theorem exec_withStatusExtLda {i : Instr} {s t : State} (st : Byte) (b : Bool) (h : exec i s = .next t) :
    ∃ st', exec i { s with status := st, extLda := b } = .next { t with status := st', extLda := b } ∧
      (st = s.status → st' = t.status) := by
  obtain ⟨rfl, rfl⟩ | ⟨rfl, rfl⟩ | ⟨rfl, rfl⟩ | ⟨hn, v, hv, rfl⟩ := exec_next_cases h
  · exact ⟨st, exec_brk _, id⟩
  · exact ⟨_, exec_inx _, congrArg (updateZN · _)⟩
  · exact ⟨_, exec_tax _, congrArg (updateZN · _)⟩
  · exact ⟨_, exec_lda_next hn ((operandValue_withStatusExtLda _ s st b).trans hv), congrArg (updateZN · v)⟩

/-- Settles O39: neither the fetch nor the decoder reads `status`, and no handler does but to update it. -/
theorem stepDoesNotReadStatus : Obligations.StepDoesNotReadStatus := by
  intro s t st h
  obtain ⟨hs, ⟨hnone, rfl⟩ | ⟨i, e, -, hd, -, -, hx⟩⟩ := step_cases h
  · exact ⟨st, step_of_unmapped (s := { s with status := st }) hs hnone⟩
  · obtain ⟨st', hx', -⟩ := exec_withStatusExtLda st s.extLda hx
    obtain ⟨-, hext, -⟩ := step_frame h
    refine ⟨st', (step_of_decode (s := { s with status := st }) hs hd).trans (hx'.trans ?_)⟩
    rw [← hext]

/-- The extended map keeps the base rows (30_encoding.md R54). -/
theorem decodeOpcode_true_of_base {op : Byte} {e : OpcodeEntry} (h : decodeOpcode false op = some e) :
    decodeOpcode true op = some e := by
  rw [decodeOpcode_true, h, Option.some_or]

/-- What decodes under the base map decodes to the same under the extended one. -/
theorem decodeInstr_true_of_base {op b1 b2 : Byte} {i : Instr} (h : decodeInstr false op b1 b2 = .ok i) :
    decodeInstr true op b1 b2 = .ok i := by
  obtain ⟨e, he, -⟩ := decodeInstr_ok h
  simpa only [decodeInstr, he, decodeOpcode_true_of_base he] using h

/-- Settles O42: the base instruction decodes under the extended map too, and its handler does not read the parameter. -/
theorem extLdaOnlyAddsOpcodes : Obligations.ExtLdaOnlyAddsOpcodes := by
  intro s t e he h
  obtain ⟨hs, ⟨hnone, -⟩ | ⟨i, -, -, hd, -, -, hx⟩⟩ := step_cases h
  · cases he.symm.trans hnone
  · obtain ⟨_, hx', hst⟩ := exec_withStatusExtLda s.status true hx
    obtain rfl := hst rfl
    exact (step_of_decode (s := { s with extLda := true }) hs (decodeInstr_true_of_base hd)).trans hx'

/-- Which handlers write which of A and X: LDA only A, INX and TAX only X, and BRK neither. -/
theorem exec_registers {i : Instr} {s t : State} (h : exec i s = .next t) :
    (t.accumulator = s.accumulator ∨ i.name = .lda) ∧ (t.registerX = s.registerX ∨ i = .inx ∨ i = .tax) := by
  obtain ⟨rfl, rfl⟩ | ⟨rfl, rfl⟩ | ⟨rfl, rfl⟩ | ⟨hn, v, -, rfl⟩ := exec_next_cases h
  · exact ⟨.inl rfl, .inl rfl⟩
  · exact ⟨.inl rfl, .inr (.inl rfl)⟩
  · exact ⟨.inl rfl, .inr (.inr rfl)⟩
  · exact ⟨.inr hn, .inl rfl⟩

/-- A step that changes A is one of an LDA opcode (R16). -/
theorem step_accumulator_ne {s t : State} (h : step s = .next t) (hA : t.accumulator ≠ s.accumulator) :
    ∃ e, decodeOpcode s.extLda (readByte s.mem s.pc) = some e ∧ e.name = .lda := by
  obtain ⟨-, rfl⟩ | ⟨i, e, he, -, hn, hx⟩ := step_opcode_cases h
  · exact absurd rfl hA
  · exact ⟨e, he, hn.symm.trans ((exec_registers hx).1.resolve_left hA)⟩

/-- A step that changes X is one of INX or TAX (R17). -/
theorem step_registerX_ne {s t : State} (h : step s = .next t) (hX : t.registerX ≠ s.registerX) :
    readByte s.mem s.pc = 0xE8 ∨ readByte s.mem s.pc = 0xAA := by
  obtain ⟨-, rfl⟩ | ⟨i, e, -, hop, -, hx⟩ := step_opcode_cases h
  · exact absurd rfl hX
  · rw [← hop]
    obtain rfl | rfl := (exec_registers hx).2.resolve_left hX
    · exact .inl rfl
    · exact .inr rfl

/-- What each host operation does to the registers and the parameter. -/
theorem hostStep_registers {op : HostOp} {s t : State} (h : hostStep op s = .next t) :
    t.extLda = s.extLda ∧
    ((∃ p, op = .load p) ∨ op = .reset → t.accumulator = 0x00 ∧ t.registerX = 0x00 ∧ t.registerY = 0x00) ∧
    ((∃ a v, op = .write a v) ∨ op = .beginRun →
      t.accumulator = s.accumulator ∧ t.registerX = s.registerX ∧ t.registerY = s.registerY ∧ t.pc = s.pc) := by
  obtain ⟨-, ⟨p, rfl, -, rfl⟩ | ⟨rfl, rfl⟩ | ⟨a, v, rfl, rfl⟩ | ⟨rfl, -, rfl⟩⟩ := hostStep_cases h <;> simp

/-- Settles O41: Y and the parameter are in every step's frame, and A and X change by their own opcodes only. -/
theorem registerWriters : Obligations.RegisterWriters := by
  refine ⟨fun s t h => ?_, fun _ _ _ h => hostStep_registers h⟩
  obtain ⟨-, hext, hy⟩ := step_frame h
  exact ⟨hy, hext, step_accumulator_ne h, step_registerX_ne h⟩

end Sys2Proof.Machine

/-! ### The invariant over host operations and histories (10_state.md R18, R25, R28) -/

namespace Sys2Proof.Machine

/-- `reset` leaves the invariant, whatever the registers and the sequencer were. -/
theorem inv_resetCore {s : State} (hm : s.mem.wf = true) : Inv (resetCore s) where
  memory := hm
  record := by simp
  yZero := rfl
  flags := .inl rfl

/-- Settles O44: `load` and `reset` by `inv_resetCore`; a host write keeps the canonical form, and a run starts where no
record is held. -/
theorem hostOperationsKeepTheInvariant : Obligations.HostOperationsKeepTheInvariant := by
  intro op s t hinv h
  obtain ⟨-, ⟨p, -, -, rfl⟩ | ⟨-, rfl⟩ | ⟨a, v, -, rfl⟩ | ⟨-, hs, rfl⟩⟩ := hostStep_cases h
  · exact inv_resetCore (wf_loadMemory hinv.memory p)
  · exact inv_resetCore hinv.memory
  · exact { hinv with memory := wf_writeByte hinv.memory a v }
  · have hrec : ¬ s.fault.isSome = true := by
      rw [hinv.record]
      obtain hs | hs := hs <;> simp [hs]
    exact { hinv with record := iff_of_false hrec nofun }

/-- A newly built CORE meets the invariant. -/
theorem inv_constructWith (extLda : Bool) : Inv (State.constructWith extLda) where
  memory := rfl
  record := iff_of_false nofun nofun
  yZero := rfl
  flags := .inl rfl

/-- Settles O45: `State.reset` is what `reset` leaves of a newly built CORE. -/
theorem constructionAndResetMeetTheInvariant : Obligations.ConstructionAndResetMeetTheInvariant :=
  ⟨inv_constructWith, reset_eq_resetCore_construction ▸ inv_resetCore (inv_constructWith _).memory⟩

/-- Every reachable state meets the invariant: it holds at construction and every step and host operation keeps it. -/
theorem inv_of_reachable {s : State} (h : Reachable s) : Inv s := by
  induction h with
  | construct extLda => exact inv_constructWith extLda
  | step s t _ e ih => exact stepKeepsTheInvariant s t ih e
  | host op s t _ e ih => exact hostOperationsKeepTheInvariant op s t ih e

/-- The three values of `status` are what the flag unit makes of 0x00. -/
theorem exists_eq_updateZN {st : Byte} (h : st = 0x00 ∨ st = 0x02 ∨ st = 0x80) : ∃ r, st = updateZN 0x00 r := by
  obtain rfl | rfl | rfl := h
  · exact ⟨0x01, rfl⟩
  · exact ⟨0x00, rfl⟩
  · exact ⟨0x80, rfl⟩

/-- Settles O46: the invariant by induction on the history, and `status` as an update of 0x00. -/
theorem reachableStatesMeetTheInvariant : Obligations.ReachableStatesMeetTheInvariant := by
  intro s h
  have hinv := inv_of_reachable h
  obtain ⟨r, hr⟩ := exists_eq_updateZN hinv.flags
  refine ⟨hinv, fun k h1 h7 => ?_, ?_⟩
  · rw [hr, updateZN_getLsbD_reserved _ r h1 h7]
    exact BitVec.getLsbD_zero
  · rw [hr]
    exact (zeroAndNegativeExcludeEachOther 0x00 0x00 r).1

end Sys2Proof.Machine

/-! ### The host interface (70_reset_and_hazards.md R119-R123, 40_fetch_execute.md R67-R71) -/

namespace Sys2Proof.Machine

section Admitted
variable {s : State} (hs : s.seq ≠ .running)
include hs

/-- `reset` between runs. -/
theorem hostStep_reset : hostStep .reset s = .next (resetCore s) := if_neg hs

/-- `load` between runs, of a program that fits. -/
theorem hostStep_load {program : List Byte} (hlen : program.length ≤ 32768) :
    hostStep (.load program) s = .next (resetCore { s with mem := loadMemory program s.mem }) :=
  (if_neg hs).trans (if_neg (Nat.not_lt.2 hlen))

/-- `load` between runs, of a program that does not fit (D8). -/
theorem hostStep_load_too_large {program : List Byte} (hlen : 32768 < program.length) :
    hostStep (.load program) s = .refused .programTooLarge :=
  (if_neg hs).trans (if_pos hlen)

/-- The host write port between runs. -/
theorem hostStep_write (a : Word) (v : Byte) :
    hostStep (.write a v) s = .next { s with mem := writeByte s.mem a v } := if_neg hs

end Admitted

/-- Every host operation is refused while `Running` (entry 14). -/
theorem hostStep_running {s : State} (hs : s.seq = .running) (op : HostOp) :
    hostStep op s = .refused .hostWhileRunning := by
  cases op with
  | load | reset | write => exact if_pos hs
  | beginRun => simp only [hostStep, beginRun, hs]

/-- `run` is refused in `Unloaded` (D7). -/
theorem beginRun_unloaded {s : State} (hs : s.seq = .unloaded) : beginRun s = .refused .runNotLoaded := by
  simp only [beginRun, hs]

/-- `run` is refused in `Faulted` (D7). -/
theorem beginRun_faulted {s : State} (hs : s.seq = .faulted) : beginRun s = .refused .runAfterFault := by
  simp only [beginRun, hs]

/-- Settles O48: `reset` is admitted, and pc is the word at the vector. -/
theorem resetLoadsPcFromTheVector : Obligations.ResetLoadsPcFromTheVector := fun s hs =>
  ⟨_, hostStep_reset hs, rfl, rfl, rfl, rfl, readWord_toNat s.mem Config.resetVector, rfl, rfl, rfl, rfl⟩

/-- Settles O49: `load` is admitted, and each byte afterwards is `readByte_loadMemory`'s. -/
theorem loadPlacesTheProgram : Obligations.LoadPlacesTheProgram := by
  intro s program hm hs hlen
  have hlow : readByte (loadMemory program s.mem) 0xFFFC = 0x00 := by
    rw [readByte_loadMemory hm hlen, if_neg (by decide), if_pos rfl]
  have hhigh : readByte (loadMemory program s.mem) 0xFFFD = 0x80 := by
    rw [readByte_loadMemory hm hlen, if_pos rfl]
  refine ⟨_, hostStep_load hs hlen, rfl, rfl, rfl, rfl, ?_, rfl, rfl, rfl, hlow, hhigh, ?_, ?_⟩
  · calc readWord (loadMemory program s.mem) 0xFFFC
        = composeWord 0x80 0x00 := congrArg₂ composeWord hhigh hlow
      _ = 0x8000 := by decide
  · intro k hk hlo hhi
    have hdist : (0x8000 + BitVec.ofNat 16 k - 0x8000 : Word).toNat = k := by bv_omega
    have hne_hi : (0x8000 + BitVec.ofNat 16 k : Word) ≠ 0xFFFD := by bv_omega
    have hne_lo : (0x8000 + BitVec.ofNat 16 k : Word) ≠ 0xFFFC := by bv_omega
    rw [resetCore_mem, readByte_loadMemory hm hlen, if_neg hne_hi, if_neg hne_lo, hdist,
      List.getElem?_eq_getElem hk, Option.getD_some]
  · exact fun a hlo hhi hout => readByte_loadMemory_outside hm hlen hlo hhi hout

/-- Settles O50: the port writes one byte of memory, and reads afterwards are `readByte_writeByte`'s. -/
theorem hostWriteChangesOneByte : Obligations.HostWriteChangesOneByte := fun _ a v hm hs =>
  ⟨_, hostStep_write hs a v, rfl, fun b => readByte_writeByte hm a b v⟩

/-- Settles O51: both observations ask only whether the sequencer is `Running`. -/
theorem observationReadsTheStateBetweenRuns : Obligations.ObservationReadsTheStateBetweenRuns := fun _ =>
  ⟨fun hs => ⟨⟨_, if_neg hs, rfl, rfl, rfl, rfl, rfl, rfl⟩, fun _ => if_neg hs⟩,
    fun hs => ⟨if_pos hs, fun _ => if_pos hs⟩⟩

/-- Settles O52: each operation's admission and refusals by its own lemma. -/
theorem hostOperationAdmission : Obligations.HostOperationAdmission := by
  intro s
  refine ⟨hostStep_running, beginRun_unloaded, beginRun_faulted, beginRun_admitted, ?_, ?_, ?_, ?_⟩
  · exact fun _ hs hlen => hostStep_load_too_large hs hlen
  · exact fun _ hs hlen => ⟨_, hostStep_load hs hlen, rfl⟩
  · exact fun hs => ⟨_, hostStep_reset hs, rfl⟩
  · exact fun a v hs => ⟨_, hostStep_write hs a v, rfl⟩

/-- Settles O53: no step completes outside `Running`, the start of a run is refused, and of the operations admitted there
the write port leaves the sequencer. -/
theorem onlyLoadAndResetLeaveFaulted : Obligations.OnlyLoadAndResetLeaveFaulted := by
  intro s hs
  refine ⟨fun ⟨t, h⟩ => ?_, fun fuel => ?_, fun op t h hne => ?_⟩
  · cases hs.symm.trans (step_running h)
  · rw [hostRun, beginRun_faulted hs]
  · obtain ⟨-, ⟨p, rfl, -, rfl⟩ | ⟨rfl, rfl⟩ | ⟨a, v, -, rfl⟩ | ⟨-, hq, -⟩⟩ := hostStep_cases h
    · exact ⟨.inl ⟨p, rfl⟩, rfl, rfl⟩
    · exact ⟨.inr rfl, rfl, rfl⟩
    · exact absurd hs hne
    · obtain hq | hq := hq <;> cases hs.symm.trans hq

/-- Settles O54: the write port is admitted, it keeps the sequencer, so the run is too, and pc's byte is the one written. -/
theorem fetchSeesTheHostWrite : Obligations.FetchSeesTheHostWrite := by
  intro s v hm hs
  have hstopped : s.seq ≠ .running := by obtain hs | hs := hs <;> simp [hs]
  refine ⟨_, _, hostStep_write hstopped s.pc v, beginRun_admitted hs, rfl, ?_⟩
  rw [fetch_eq]
  exact (readByte_writeByte hm s.pc s.pc v).trans (if_pos rfl)

end Sys2Proof.Machine

/-! ### Runs: the loop under fuel and counted steps (40_fetch_execute.md R67-R72) -/

namespace Sys2Proof.Machine

/-- A run that has ended is not `Running`. -/
theorem Ended.not_running {s : State} (h : Ended s) : s.seq ≠ .running := by
  obtain hq | hq := h <;> exact fun hr => nomatch hr.symm.trans hq

/-- The loop answers a state with every property that steps keep. -/
theorem runLoop_keeps {P : State → Prop} (hstep : ∀ s t, P s → step s = .next t → P t) (fuel : Nat) {s : State}
    (hs : P s) : ∃ t, runLoop fuel s = .next t ∧ P t := by
  induction fuel generalizing s with
  | zero => exact ⟨s, rfl, hs⟩
  | succ n ih =>
    by_cases hr : s.seq = .running
    · obtain ⟨u, hu⟩ := step_total hr
      obtain ⟨t, ht, hP⟩ := ih (hstep s u hs hu)
      exact ⟨t, (runLoop_running hu n).trans ht, hP⟩
    · exact ⟨s, runLoop_stopped hr _, hs⟩

/-- More fuel changes nothing once the loop has stopped. -/
theorem runLoop_more {fuel : Nat} {s t : State} (h : runLoop fuel s = .next t) (ht : t.seq ≠ .running) (more : Nat) :
    runLoop (fuel + more) s = .next t := by
  induction fuel generalizing s with
  | zero =>
    obtain rfl := Host.Outcome.next.inj h
    exact runLoop_stopped ht _
  | succ n ih =>
    by_cases hr : s.seq = .running
    · obtain ⟨u, hu⟩ := step_total hr
      rw [runLoop_running hu] at h
      rw [Nat.add_right_comm, runLoop_running hu]
      exact ih h
    · rw [runLoop_stopped hr] at h ⊢
      exact h

/-- An admitted `run` is the loop from the same state, `Running`. -/
theorem hostRun_admitted {s : State} (hs : s.seq = .loaded ∨ s.seq = .halted) (fuel : Nat) :
    hostRun fuel s = runLoop fuel (s.setSeq .running) := by
  rw [hostRun, beginRun_admitted hs]

/-- Settles O55: steps keep the invariant and leave the sequencer running or ended, and the outcome is read off. -/
theorem runReturnsItsOutcome : Obligations.RunReturnsItsOutcome := by
  intro s fuel hinv hs
  have hstart : Inv (s.setSeq .running) := hostOperationsKeepTheInvariant .beginRun s _ hinv (beginRun_admitted hs)
  obtain ⟨t, ht, hinv', hq⟩ := runLoop_keeps (P := fun u => Inv u ∧ (u.seq = .running ∨ Ended u))
    (fun u v hu hv => ⟨stepKeepsTheInvariant u v hu.1 hv, step_running_or_ended hv⟩) fuel ⟨hstart, .inl rfl⟩
  simp only [hostRun_admitted hs]
  refine ⟨t, ht, hq, fun hend more => runLoop_more ht hend.not_running more, fun hr => ?_, fun hg => ?_, fun hb => ?_⟩
  · simp only [runOutcome, hr]
  · simp only [runOutcome, show t.seq = .halted from hg]
  · obtain ⟨f, hf⟩ := Option.isSome_iff_exists.1 (hinv'.record.2 hb)
    refine ⟨f, hf, ?_⟩
    simp only [runOutcome, show t.seq = .faulted from hb, hf, Option.map_some]

/-- Counted steps of any machine, from their first one. -/
theorem core_run_succ_iff (M : Host.Core) {k : Nat} {s t : M.State} :
    M.run (k + 1) s = .next t ↔ ∃ u, M.step s = .next u ∧ M.run k u = .next t := by
  rw [Host.Core.run]
  cases M.step s <;> simp

/-- No steps leave the state itself. -/
theorem steps_zero_iff {s t : State} : Steps 0 s t ↔ s = t :=
  ⟨Host.Outcome.next.inj, congrArg Host.Outcome.next⟩

/-- Counted steps from their first one. -/
theorem steps_succ_iff {k : Nat} {s t : State} : Steps (k + 1) s t ↔ ∃ u, step s = .next u ∧ Steps k u t :=
  core_run_succ_iff Sys2Proof.core

/-- As many steps as the fuel are the whole loop, because a completed step starts in `Running`. -/
theorem runLoop_of_steps {k : Nat} {s t : State} (h : Steps k s t) : runLoop k s = .next t := by
  induction k generalizing s with
  | zero => exact congrArg Host.Outcome.next (steps_zero_iff.1 h)
  | succ k ih =>
    obtain ⟨u, hu, hrest⟩ := steps_succ_iff.1 h
    exact (runLoop_running hu k).trans (ih hrest)

end Sys2Proof.Machine

/-! ### How long a run can be (40_fetch_execute.md R72) -/

namespace Sys2Proof.Machine

/-- Every byte below `LOAD_BASE` is 0x00, as `load` leaves it. -/
def LowHalfZero (m : Memory) : Prop := ∀ a : Word, a.toNat < 0x8000 → readByte m a = 0x00

/-- In the zeroed half every step is a BRK. -/
theorem step_lowHalf_ended {s t : State} (hz : LowHalfZero s.mem) (hpc : s.pc.toNat < 0x8000)
    (h : step s = .next t) : Ended t := by
  obtain rfl := Host.Outcome.next.inj ((step_brk (step_running h) (hz s.pc hpc)).symm.trans h)
  exact .inl rfl

/-- A step whose run goes on moves pc forward by one to three bytes, modulo 65536. -/
theorem step_pc_of_running {s t : State} (h : step s = .next t) (ht : t.seq = .running) :
    ∃ n, 1 ≤ n ∧ n ≤ 3 ∧ t.pc.toNat = (s.pc.toNat + n) % 65536 := by
  obtain ⟨-, rfl⟩ | ⟨i, e, -, -, -, hx⟩ := step_opcode_cases h
  · cases ht
  · have hlen := operandLength_le_two i.mode
    have hadv := advancePc_pc_toNat s 1
    refine ⟨1 + i.mode.operandLength, by omega, by omega, ?_⟩
    rw [exec_pc hx, BitVec.toNat_add, BitVec.toNat_ofNat]
    omega

/-- With `n` bytes left up to the top of memory, or in the zeroed half, a run ends within `n + 1` steps: each step ends it,
or leaves fewer bytes, or wraps into the zeroed half. -/
theorem ends_within {n : Nat} {s : State} (hs : s.seq = .running) (hz : LowHalfZero s.mem)
    (hpc : s.pc.toNat < 0x8000 ∨ 65536 ≤ s.pc.toNat + n) :
    ∃ (k : Nat) (t : State), k ≤ n + 1 ∧ Steps k s t ∧ Ended t := by
  induction n generalizing s with
  | zero =>
    obtain ⟨u, hu⟩ := step_total hs
    have hlow : s.pc.toNat < 0x8000 := by omega
    exact ⟨1, u, le_rfl, steps_succ_iff.2 ⟨u, hu, rfl⟩, step_lowHalf_ended hz hlow hu⟩
  | succ n ih =>
    obtain ⟨u, hu⟩ := step_total hs
    obtain hr | hend := step_running_or_ended hu
    · have hhigh : ¬ s.pc.toNat < 0x8000 := fun hlow => (step_lowHalf_ended hz hlow hu).not_running hr
      obtain ⟨d, hd1, hd3, hd⟩ := step_pc_of_running hu hr
      obtain ⟨k, t, hk, hsteps, hend⟩ := ih hr ((step_frame hu).1 ▸ hz) (by omega)
      exact ⟨k + 1, t, by omega, steps_succ_iff.2 ⟨u, hu, hsteps⟩, hend⟩
    · exact ⟨1, u, by omega, steps_succ_iff.2 ⟨u, hu, rfl⟩, hend⟩

/-- Settles O56: wherever pc is, it is in the zeroed half or at most 32768 bytes from the top. -/
theorem runsOnLoadedMemoryEnd : Obligations.RunsOnLoadedMemoryEnd :=
  fun s hs hz => ends_within (n := 32768) hs hz (by omega)

/-- `load` writes nothing below `LOAD_BASE`. -/
theorem lowHalfZero_loadMemory {m : Memory} (hm : m.wf = true) (hz : LowHalfZero m) {program : List Byte}
    (hlen : program.length ≤ 32768) : LowHalfZero (loadMemory program m) := fun a ha =>
  (readByte_loadMemory_outside hm hlen (by bv_omega) (by bv_omega) (.inl ha)).trans (hz a ha)

/-- Nor do any number of loads, and memory stays canonical. -/
theorem lowHalfZero_loads {m : Memory} {programs : List (List Byte)} (hm : m.wf = true) (hz : LowHalfZero m)
    (hlen : ∀ p ∈ programs, p.length ≤ 32768) :
    LowHalfZero (programs.foldl (fun m p => loadMemory p m) m) := by
  induction programs generalizing m with
  | nil => exact hz
  | cons p rest ih =>
    obtain ⟨hp, hrest⟩ := List.forall_mem_cons.1 hlen
    exact ih (wf_loadMemory hm p) (lowHalfZero_loadMemory hm hz hp) hrest

/-- Settles O57: after loads the lower half is zeroed, and the steps O56 counts are a loop that more fuel does not change. -/
theorem runsAfterLoadsEnd : Obligations.RunsAfterLoadsEnd := by
  intro extLda programs s hmem hlen hs
  have hz : LowHalfZero s.mem := by
    rw [hmem]
    exact lowHalfZero_loads rfl (fun a _ => readByte_constructWith extLda a) hlen
  obtain ⟨k, t, hk, hsteps, hend⟩ := runsOnLoadedMemoryEnd (s.setSeq .running) rfl hz
  refine ⟨t, ?_, hend⟩
  rw [hostRun_admitted hs, ← Nat.add_sub_of_le hk]
  exact runLoop_more (runLoop_of_steps hsteps) hend.not_running _

/-- What the step of an INX moves, and what it leaves for the next step (45_register_inx_tax.md R100). -/
theorem step_inx {s : State} (hs : s.seq = .running) (hop : readByte s.mem s.pc = 0xE8) :
    ∃ t, step s = .next t ∧ t.seq = .running ∧ t.mem = s.mem ∧ t.pc.toNat = (s.pc.toNat + 1) % 65536 ∧
      t.registerX.toNat = (s.registerX.toNat + 1) % 256 := by
  obtain ⟨-, -, hinx⟩ := inxIncrementsX
  exact ⟨_, (hinx s).2 hs hop, hs, rfl, advancePc_pc_toNat s 1, inc8_toNat s.registerX⟩

/-- Settles O58: each step is an INX, which moves pc and X by one and leaves memory as it was. -/
theorem allInxMemoryNeverEnds : Obligations.AllInxMemoryNeverEnds := by
  intro s hs hmem k
  induction k generalizing s with
  | zero => exact ⟨s, rfl, hs, (Nat.mod_eq_of_lt s.pc.isLt).symm, (Nat.mod_eq_of_lt s.registerX.isLt).symm⟩
  | succ k ih =>
    obtain ⟨u, hu, hr, hm, hpc, hX⟩ := step_inx hs (hmem s.pc)
    obtain ⟨t, hsteps, ht, hpc', hX'⟩ := ih u hr (hm ▸ hmem)
    exact ⟨t, steps_succ_iff.2 ⟨u, hu, hsteps⟩, ht, by omega, by omega⟩

end Sys2Proof.Machine
